-- ==== Sys2Proof/Word.lean ====
section
/-! DEFINITION. The 16-bit word and the two narrow fields of an instruction word (rules R7, R9, R10). -/

namespace Sys2Proof

/-- A word: 16 bits, unsigned, the unit of registers, memory cells and bus transfers (R7, R10, R64). -/
abbrev Word := BitVec 16

/-- A 6-bit operand field or extended opcode (R91, R92). -/
abbrev Field6 := BitVec 6

/-- `n` reduced modulo 2^16: the one narrowing from exact integers to words (R10). -/
abbrev word (n : Nat) : Word := BitVec.ofNat 16 n

end Sys2Proof
end

