-- ==== Sys2Proof/Machine/Flags.lean ====
section
/-! DEFINITION. Every overflow word and every condition (rules R175 to R181, R190 to R192, R210 to R214), computed on
exact non-negative integers and cut to 16 bits at the end (R10). -/

namespace Sys2Proof.Machine

/-- The overflow word of ADD: the carry, 0 or 1 (R176). -/
def addOverflow (va vb : Word) : Word := if va.toNat + vb.toNat > 0xFFFF then 1#16 else 0#16

/-- The overflow word of SUB: 0xFFFF on a borrow (R177). -/
def subOverflow (va vb : Word) : Word := if va.toNat < vb.toNat then 0xFFFF#16 else 0#16

/-- The overflow word of MUL: the high half of the product (R178). -/
def mulOverflow (va vb : Word) : Word := word (va.toNat * vb.toNat / 2 ^ 16)

/-- The overflow word of DIV: sixteen binary digits of the quotient's fraction; 0 for a zero divisor (R179). -/
def divOverflow (va vb : Word) : Word := if vb = 0#16 then 0#16 else word (va.toNat * 2 ^ 16 / vb.toNat)

/-- The overflow word of SHL: bits 31 to 16 of the exact shifted value, by the whole count (R190, R191). -/
def shlOverflow (va vb : Word) : Word := word (va.toNat * 2 ^ vb.toNat / 2 ^ 16)

/-- The overflow word of SHR: the exact `va * 65536` shifted right, by the whole count (R190, R192). -/
def shrOverflow (va vb : Word) : Word := word (va.toNat * 2 ^ 16 / 2 ^ vb.toNat)

/-- IFE's condition (R211). -/
def equalHolds (va vb : Word) : Bool := va == vb

/-- IFN's condition (R212). -/
def differHolds (va vb : Word) : Bool := va != vb

/-- IFG's condition, unsigned (R213). -/
def greaterHolds (va vb : Word) : Bool := decide (va.toNat > vb.toNat)

/-- IFB's condition: a bit in common (R214). -/
def commonBitHolds (va vb : Word) : Bool := (va &&& vb) != 0#16

end Sys2Proof.Machine
end

