-- ==== Sys2Proof/Syntax.lean ====
section
/-! DEFINITION. The instructions as syntax: registers, the operand addressing modes, and one constructor per
mnemonic of `spec/opcode_table.json` (rules R20, R94, R97, R98, R100). -/

namespace Sys2Proof

/-- The eight general registers, in the order of their numbers 0 to 7 (R20). -/
inductive Reg
  | a
  | b
  | c
  | x
  | y
  | z
  | i
  | j
  deriving DecidableEq, Repr

/-- An operand: the addressing mode of R94 with the extra word it consumed, if any (R120). -/
inductive Operand
  /-- Fields 0x00 to 0x07: the register itself (R122). -/
  | reg (r : Reg)
  /-- Fields 0x08 to 0x0F: the word the register points at (R123). -/
  | ind (r : Reg)
  /-- Fields 0x10 to 0x17: the word at next word plus register (R124). -/
  | indOff (w : Word) (r : Reg)
  /-- Field 0x18 (R125). -/
  | pop
  /-- Field 0x19 (R126). -/
  | peek
  /-- Field 0x1A (R127). -/
  | push
  /-- Field 0x1B (R128). -/
  | sp
  /-- Field 0x1C (R129). -/
  | pc
  /-- Field 0x1D (R130). -/
  | o
  /-- Field 0x1E: the word at the address in the next word (R131). -/
  | indNext (w : Word)
  /-- Field 0x1F: the next word as a literal (R132). -/
  | litNext (w : Word)
  /-- Fields 0x20 to 0x3F: the inline literals 0 to 31 (R133). -/
  | lit (v : BitVec 5)
  deriving DecidableEq, Repr

/-- The instructions: fifteen basic ones (R97), JSR (R98), and the undefined extended words (R100), which the table
lists as `UNK`. Operand `a` is the destination and first source, `b` the second source (R12). -/
inductive Instr
  | set (a b : Operand)
  | add (a b : Operand)
  | sub (a b : Operand)
  | mul (a b : Operand)
  | div (a b : Operand)
  | mod (a b : Operand)
  | shl (a b : Operand)
  | shr (a b : Operand)
  | and (a b : Operand)
  | bor (a b : Operand)
  | xor (a b : Operand)
  | ife (a b : Operand)
  | ifn (a b : Operand)
  | ifg (a b : Operand)
  | ifb (a b : Operand)
  | jsr (a : Operand)
  /-- An undefined extended word: its extended opcode and its operand field, which decides a length only (R221). -/
  | unk (xop f : Field6)
  deriving DecidableEq, Repr

end Sys2Proof
end

