-- ==== Sys2Proof/WellFormed.lean ====
section
/-! DEFINITION. Which terms of `Instr` the encoding admits (rule R100). Every operand is admitted in every position
(R94: all 64 fields are defined; R101: a literal destination is legal), so there is one check. -/

namespace Sys2Proof

/-- Extended opcode 1 is JSR, so an undefined extended word carries any other one (R98, R100). -/
def undefinedXop (xop : Field6) : Bool := xop != 1#6

/-- A term that some first word encodes. -/
def Instr.wellFormed : Instr → Bool
  | .unk xop _ => undefinedXop xop
  | .set _ _ => true
  | .add _ _ => true
  | .sub _ _ => true
  | .mul _ _ => true
  | .div _ _ => true
  | .mod _ _ => true
  | .shl _ _ => true
  | .shr _ _ => true
  | .and _ _ => true
  | .bor _ _ => true
  | .xor _ _ => true
  | .ife _ _ => true
  | .ifn _ _ => true
  | .ifg _ _ => true
  | .ifb _ _ => true
  | .jsr _ => true

end Sys2Proof
end

