-- ==== Sys2Proof/Decode.lean ====
section
/-! DEFINITION. From words to instructions and back (rules R90 to R104): the fields of a first word, its length, the
decoder, the encoder, and the opcode table's rows as patterns. -/

namespace Sys2Proof

/-! ## Fields and lengths -/

/-- `w[3:0]`, the basic opcode; 0 marks the extended format (R91, R93). -/
def opField (w : Word) : BitVec 4 := w.extractLsb' 0 4

/-- `w[9:4]`: operand a of a basic word, the extended opcode of an extended one (R91, R92). -/
def midField (w : Word) : Field6 := w.extractLsb' 4 6

/-- `w[15:10]`: operand b of a basic word, the single operand of an extended one (R91, R92). -/
def topField (w : Word) : Field6 := w.extractLsb' 10 6

/-- `extra(f)`: how many words an operand field consumes (R96). -/
def extra (f : Field6) : Nat :=
  if (0x10 ≤ f.toNat ∧ f.toNat ≤ 0x17) ∨ f.toNat = 0x1E ∨ f.toNat = 0x1F then 1 else 0

/-- The extended format (R93). -/
def isExtended (w : Word) : Bool := opField w == 0#4

/-- The first words that a normal step answers with IllegalOpcode (R100). -/
def isIllegal (w : Word) : Bool := isExtended w && undefinedXop (midField w)

/-- How many extra words belong to an instruction, from its first word alone (R96, R103). -/
def extraWords (w : Word) : Nat :=
  if isExtended w then extra (topField w) else extra (midField w) + extra (topField w)

/-- The length in words of the instruction that begins with `w`: 1, 2 or 3 (R90, R96). -/
def lengthOf (w : Word) : Nat := 1 + extraWords w

/-- How many extra words a NORMAL step reads: none for an illegal word (R156, R158). -/
def wordsToRead (w : Word) : Nat := if isIllegal w then 0 else extraWords w

/-! ## Decoding -/

/-- The register with a number; only its three low bits count (R20, R94). -/
def regOf (f : Field6) : Reg :=
  match f.toNat % 8 with
  | 0 => .a
  | 1 => .b
  | 2 => .c
  | 3 => .x
  | 4 => .y
  | 5 => .z
  | 6 => .i
  | _ => .j

/-- The operand of a field, with `w` for the extra word where the mode has one (R94). -/
def operandOf (f : Field6) (w : Word) : Operand :=
  match f.toNat / 8, f.toNat % 8 with
  | 0, _ => .reg (regOf f)
  | 1, _ => .ind (regOf f)
  | 2, _ => .indOff w (regOf f)
  | 3, 0 => .pop
  | 3, 1 => .peek
  | 3, 2 => .push
  | 3, 3 => .sp
  | 3, 4 => .pc
  | 3, 5 => .o
  | 3, 6 => .indNext w
  | 3, _ => .litNext w
  | _, _ => .lit (f.extractLsb' 0 5)

/-- The basic instruction of an opcode 1 to 15 (R97). -/
def basicOf (op : BitVec 4) (a b : Operand) : Option Instr :=
  match op.toNat with
  | 0x1 => some (.set a b)
  | 0x2 => some (.add a b)
  | 0x3 => some (.sub a b)
  | 0x4 => some (.mul a b)
  | 0x5 => some (.div a b)
  | 0x6 => some (.mod a b)
  | 0x7 => some (.shl a b)
  | 0x8 => some (.shr a b)
  | 0x9 => some (.and a b)
  | 0xA => some (.bor a b)
  | 0xB => some (.xor a b)
  | 0xC => some (.ife a b)
  | 0xD => some (.ifn a b)
  | 0xE => some (.ifg a b)
  | 0xF => some (.ifb a b)
  | _ => none

/-- The extended instruction of an extended opcode: JSR, or the undefined word (R92, R98). -/
def extendedOf (xop f : Field6) (e : Word) : Instr :=
  if undefinedXop xop then .unk xop f else .jsr (operandOf f e)

/-- The instruction of a first word and the extra words after it, in memory order. Operand a takes the first extra
word it needs, operand b the next (R95). Total on every word (R102). -/
def decodeWords (w e1 e2 : Word) : Instr :=
  let a := operandOf (midField w) e1
  let b := operandOf (topField w) (if extra (midField w) = 1 then e2 else e1)
  (basicOf (opField w) a b).getD (extendedOf (midField w) (topField w) e1)

/-- Why a list of words is no instruction. -/
inductive DecodeError
  /-- There is no first word. -/
  | noFirstWord
  /-- The list ends before the last extra word the first word asks for. -/
  | missingExtraWord
  deriving DecidableEq, Repr

/-- The instruction at the head of a list of words, with the words after it. An illegal first word needs none of its
extra words to be known (R158, R221). -/
def decode : List Word → Except DecodeError (Instr × List Word)
  | [] => .error .noFirstWord
  | w :: rest =>
    if rest.length < wordsToRead w then .error .missingExtraWord
    else .ok (decodeWords w (rest.getD 0 0#16) (rest.getD 1 0#16), rest.drop (extraWords w))

/-- Word `k` of a number that lays an instruction's words out from bit 0 upwards. -/
def tableWord (n k : Nat) : Word := word (n / 2 ^ (16 * k))

/-- The three words, the longest instruction's, of the bits `w`; the bits from `nbits` up are 0. -/
def tableWords (nbits w : Nat) : List Word :=
  let n := w % 2 ^ nbits
  [tableWord n 0, tableWord n 1, tableWord n 2]

/-- What the decoder reads from the bits `w` of an instruction. -/
def decodeTableWord (nbits w : Nat) : Option Instr :=
  match decode (tableWords nbits w) with
  | .ok (i, _) => some i
  | .error _ => none

/-! ## Encoding -/

/-- The number of a register (R20). -/
def regNumber : Reg → Nat
  | .a => 0
  | .b => 1
  | .c => 2
  | .x => 3
  | .y => 4
  | .z => 5
  | .i => 6
  | .j => 7

/-- The field of an operand, as a number (R94). -/
def operandNumber : Operand → Nat
  | .reg r => 0x00 + regNumber r
  | .ind r => 0x08 + regNumber r
  | .indOff _ r => 0x10 + regNumber r
  | .pop => 0x18
  | .peek => 0x19
  | .push => 0x1A
  | .sp => 0x1B
  | .pc => 0x1C
  | .o => 0x1D
  | .indNext _ => 0x1E
  | .litNext _ => 0x1F
  | .lit v => 0x20 + v.toNat

/-- The 6-bit field of an operand (R94). -/
def operandField (a : Operand) : Field6 := BitVec.ofNat 6 (operandNumber a)

/-- The extra word of an operand, if its mode has one (R94). -/
def operandExtra : Operand → List Word
  | .indOff w _ => [w]
  | .indNext w => [w]
  | .litNext w => [w]
  | .reg _ => []
  | .ind _ => []
  | .pop => []
  | .peek => []
  | .push => []
  | .sp => []
  | .pc => []
  | .o => []
  | .lit _ => []

/-- `fb * 1024 + fa * 16 + op`, the first word of the basic format (R91). -/
def basicWord (op : Nat) (fa fb : Field6) : Word := word (fb.toNat * 1024 + fa.toNat * 16 + op)

/-- `fa * 1024 + xop * 16`, the first word of the extended format (R92). -/
def extendedWord (xop f : Field6) : Word := word (f.toNat * 1024 + xop.toNat * 16)

/-- The words of a basic instruction: a's extra word before b's (R95). -/
def encodeBasic (op : Nat) (a b : Operand) : List Word :=
  basicWord op (operandField a) (operandField b) :: (operandExtra a ++ operandExtra b)

/-- The words of an instruction. For an undefined extended word that is its first word: the machine never reads the
extra word its operand field may count (R158, R221). -/
def encode : Instr → List Word
  | .set a b => encodeBasic 0x1 a b
  | .add a b => encodeBasic 0x2 a b
  | .sub a b => encodeBasic 0x3 a b
  | .mul a b => encodeBasic 0x4 a b
  | .div a b => encodeBasic 0x5 a b
  | .mod a b => encodeBasic 0x6 a b
  | .shl a b => encodeBasic 0x7 a b
  | .shr a b => encodeBasic 0x8 a b
  | .and a b => encodeBasic 0x9 a b
  | .bor a b => encodeBasic 0xA a b
  | .xor a b => encodeBasic 0xB a b
  | .ife a b => encodeBasic 0xC a b
  | .ifn a b => encodeBasic 0xD a b
  | .ifg a b => encodeBasic 0xE a b
  | .ifb a b => encodeBasic 0xF a b
  | .jsr a => extendedWord 1#6 (operandField a) :: operandExtra a
  | .unk xop f => [extendedWord xop f]

/-! ## The opcode table -/

/-- The mnemonic of an instruction, as `spec/opcode_table.json` spells it (R97, R98, R113). -/
def Instr.mnemonic : Instr → String
  | .set _ _ => "SET"
  | .add _ _ => "ADD"
  | .sub _ _ => "SUB"
  | .mul _ _ => "MUL"
  | .div _ _ => "DIV"
  | .mod _ _ => "MOD"
  | .shl _ _ => "SHL"
  | .shr _ _ => "SHR"
  | .and _ _ => "AND"
  | .bor _ _ => "BOR"
  | .xor _ _ => "XOR"
  | .ife _ _ => "IFE"
  | .ifn _ _ => "IFN"
  | .ifg _ _ => "IFG"
  | .ifb _ _ => "IFB"
  | .jsr _ => "JSR"
  | .unk _ _ => "UNK"

/-- A row of the opcode table: a word is the row's when `w & mask = pattern` (R97). -/
structure OpcodeRow where
  mnemonic : String
  pattern : Word
  mask : Word
  deriving DecidableEq, Repr

/-- The test of a row (R97). -/
def rowMatches (w : Word) (r : OpcodeRow) : Bool := (w &&& r.mask) == r.pattern

/-- The fifteen basic rows (R97). -/
def basicRows : List OpcodeRow :=
  [⟨"SET", 0x0001#16, 0x000F#16⟩, ⟨"ADD", 0x0002#16, 0x000F#16⟩, ⟨"SUB", 0x0003#16, 0x000F#16⟩,
   ⟨"MUL", 0x0004#16, 0x000F#16⟩, ⟨"DIV", 0x0005#16, 0x000F#16⟩, ⟨"MOD", 0x0006#16, 0x000F#16⟩,
   ⟨"SHL", 0x0007#16, 0x000F#16⟩, ⟨"SHR", 0x0008#16, 0x000F#16⟩, ⟨"AND", 0x0009#16, 0x000F#16⟩,
   ⟨"BOR", 0x000A#16, 0x000F#16⟩, ⟨"XOR", 0x000B#16, 0x000F#16⟩, ⟨"IFE", 0x000C#16, 0x000F#16⟩,
   ⟨"IFN", 0x000D#16, 0x000F#16⟩, ⟨"IFG", 0x000E#16, 0x000F#16⟩, ⟨"IFB", 0x000F#16, 0x000F#16⟩]

/-- JSR and the six disjoint rows of the 4032 illegal words (R98, R100). -/
def extendedRows : List OpcodeRow :=
  [⟨"JSR", 0x0010#16, 0x03FF#16⟩, ⟨"UNK", 0x0200#16, 0x020F#16⟩, ⟨"UNK", 0x0100#16, 0x030F#16⟩,
   ⟨"UNK", 0x0080#16, 0x038F#16⟩, ⟨"UNK", 0x0040#16, 0x03CF#16⟩, ⟨"UNK", 0x0020#16, 0x03EF#16⟩,
   ⟨"UNK", 0x0000#16, 0x03FF#16⟩]

/-- The 22 rows of `spec/opcode_table.json`. -/
def opcodeTable : List OpcodeRow := basicRows ++ extendedRows

end Sys2Proof
end

