-- ==== Sys2Proof/Config.lean ====
section
/-! DEFINITION. What an implementation fixes (rule R7), the named parameters the spec leaves open (rule R8), and
the free values: the answers and the outside effects of devices the spec does not describe. -/

namespace Sys2Proof.Config

/-- Words of the backing RAM and of the address space (R7, R35, R50). -/
def ramCapacity : Nat := 65536

/-- The default of the parameter `KBD_FIFO_DEPTH` (R8, R249, decision D21). Every keyboard carries its own depth. -/
def kbdFifoDepth : Nat := 16

/-- The two admitted values of the parameter `SP_RESET` (R8, R263, decision D1). -/
inductive SpReset
  | zero
  | ones
  deriving DecidableEq, Repr

/-- The word a value of `SP_RESET` stands for: 0x0000 or 0xFFFF (R39). -/
def spResetWord : SpReset → Word
  | .zero => 0x0000#16
  | .ones => 0xFFFF#16

/-- The parameters of R8 that the engine itself reads. They are configuration (R38): no step and no host move but
wiring changes them. `spReset` is `SP_RESET`; `skipEvent` is `SKIP_EVENT` (R163, D9). -/
structure Params where
  spReset : SpReset
  skipEvent : Bool
  deriving DecidableEq, Repr

/-- The defaults this spec chose: SP resets to 0x0000 (D1), a skip step sends an event (D9). -/
def defaults : Params := { spReset := .zero, skipEvent := true }

/-- The parameter `DISPLAY_STORE` (R8, R247): what a display stores for a written word. OPEN in the spec, so a
constant without a body: every claim holds whatever it is. -/
opaque displayStore : Word → Word

/-- What an undescribed device has seen, newest first: the reads and writes of its window (R62, R63) and the acts
of its environment between steps (R251). -/
inductive DeviceEvent
  | read (offset : Nat)
  | write (offset : Nat) (value : Word)
  | environment (code : Nat)
  deriving DecidableEq, Repr

/-- What a device without a description answers to a read (R250, U14: any word). It is a constant without a body,
of the device's name and base and of everything that happened at the device so far, the read itself included: so it
stands for every `get` of R63, a function of the device's own state and the offset. -/
opaque deviceReply : String → Nat → List DeviceEvent → Word

/-- The effects outside the machine that a write triggers at a device without a description (R62, R250: none, one or
more), as codes in the order they go out. It is a constant without a body, of the device's name and base and of
everything that happened at the device so far, the write itself included. -/
opaque deviceEffects : String → Nat → List DeviceEvent → List Nat

end Sys2Proof.Config
end

