-- ==== Sys2Proof/Machine/State.lean ====
section
/-! DEFINITION. Everything the machine holds, as plain data, and its value after reset (rules R20 to R39). -/

namespace Sys2Proof.Machine

/-! ## Memory -/

/-- A cell: an index and the word stored there. The machine has no bytes (R64); log entry 2. -/
abbrev Cell := Nat × Word

/-- The content of an addressable memory (R50), as the list of its words that are not 0, indices rising. A word that
no entry lists reads as its reset value 0x0000 (R39, R51). -/
abbrev Memory := List Cell

/-! ## Registers -/

/-- The eight general registers (R20). -/
structure Regs where
  a : Word
  b : Word
  c : Word
  x : Word
  y : Word
  z : Word
  i : Word
  j : Word
  deriving DecidableEq, Repr

/-- All eight at 0x0000 (R39). -/
def Regs.reset : Regs :=
  { a := 0#16, b := 0#16, c := 0#16, x := 0#16, y := 0#16, z := 0#16, i := 0#16, j := 0#16 }

/-! ## Peripherals -/

/-- What the spec says of devices: the kind of a peripheral and its own state (R36, R62, R63, R245 to R250). -/
inductive Device
  /-- A window that stores what is written (the plain addressable memory of R50 to R52). -/
  | storing (size : Nat) (cells : Memory)
  /-- A text display: it stores `DISPLAY_STORE` of what is written, and a write repaints (R246, R247). -/
  | display (size : Nat) (cells : Memory)
  /-- A keyboard: one address, whose read pops the oldest key code, 0 if there is none (R248, R249). -/
  | keyboard (depth : Nat) (fifo : List Word)
  /-- A device without a description: a read of its window returns any word, and a write may have any effect outside
  (R62, R250). The history is the MODEL's own field, log entry 5. -/
  | undescribed (size : Nat) (history : List Config.DeviceEvent)
  deriving DecidableEq, Repr

/-- An installed peripheral: the base of its window, its name and the device behind the window (R55, R56). -/
structure Installation where
  base : Nat
  name : String
  device : Device
  deriving DecidableEq, Repr

/-! ## What the machine sends out -/

/-- What a display shows for a word: nothing for 0, else the 7-bit character and the attributes above it (R246). -/
inductive DisplayCell
  | blank
  | glyph (attributes : BitVec 9) (character : BitVec 7)
  deriving DecidableEq, Repr

/-- A message to the outside: the two event outputs (R43, R161 to R163) and what a write into a window
triggers outside: a display's repaint, or an effect of a device without a description (R62, R246, R250). -/
inductive Output
  /-- One instruction was executed, or passed over by a skip step; the PC at the start of the step (R161, R163). -/
  | instructionExecuted (pc0 : Word) (skipped : Bool)
  /-- A bus address was written (R162). -/
  | memoryModified (addr : Word)
  /-- A display was written and redraws one cell (R246). -/
  | repaint (base offset : Nat) (cell : DisplayCell)
  /-- A device without a description was written and had an effect outside the machine (R62, R250). -/
  | deviceEffect (name : String) (base : Nat) (code : Nat)
  deriving DecidableEq, Repr

/-- One request on the bus port and the word it moved (R41, R156). -/
inductive BusAccess
  | read (addr value : Word)
  | write (addr value : Word)
  deriving DecidableEq, Repr

/-- Where the host stands in its order of actions: reset and install, then load, then step (R264, R265, R269). The
MODEL's own field, log entry 22. -/
inductive Phase
  | wiring
  | loaded
  | running
  deriving DecidableEq, Repr

/-! ## The state -/

/-- The machine between two steps. `outputs` and `bus` are the MODEL's own fields (log entry 21): what the latest step
sent out and what it asked of the bus, in order; no instruction reads them. `params` is configuration (R38). -/
structure State where
  /-- A, B, C, X, Y, Z, I, J (R20). -/
  regs : Regs
  /-- The program counter (R23). -/
  pc : Word
  /-- The stack pointer (R26). -/
  sp : Word
  /-- The overflow register (R28). -/
  o : Word
  /-- The pending-skip flag (R30). -/
  skip : Bool
  /-- The RAM: `Config.ramCapacity` words (R35). -/
  ram : Memory
  /-- The router's installations, in installation order (R56), each with its device's state (R36). -/
  devices : List Installation
  /-- The parameters of R8 that the engine reads. -/
  params : Config.Params
  /-- The host's progress. -/
  phase : Phase
  /-- Events and outside effects of the latest step, in the order they were sent (R164). -/
  outputs : List Output
  /-- Bus accesses of the latest step, in order (R156). -/
  bus : List BusAccess
  deriving DecidableEq, Repr

/-! ## Why a step or a host action stops -/

/-- How the machine stops. -/
inductive Fault
  /-- IllegalOpcode (R230): raised by a normal step whose first word is an undefined extended word, with the extended
  opcode it found, the one value the condition carries (R231). `left` is no part of the condition: it is the machine as
  the failing step leaves it, all as at its start (R232) but for what the read of the first word did (R156, log entry
  24). The spec's own outcome; safe. -/
  | illegalOpcode (xop : Field6) (left : State)
  deriving DecidableEq, Repr

/-- What the model does not admit. No step of the machine answers one of these but `notModelled`, which no arm of
`exec` uses; the others answer host actions that the spec tells a model to refuse (R57, R264 to R266). -/
inductive Refusal
  /-- An instruction without a meaning. Raised by nothing: every instruction has one. Safe. -/
  | notModelled (mnemonic : String)
  /-- `install` of a window of size 0 (R57, U13). Safe. -/
  | windowEmpty
  /-- `install` of a window that would run past address 0xFFFF (R57, U13). Safe. -/
  | windowPastEnd
  /-- `install` of a window that shares an address with an installed one (R57, U2). Safe. -/
  | windowOverlap
  /-- `install` after the program was loaded or a step was taken (R264, R265, U15). Safe. -/
  | wiringClosed
  /-- `load` after the first step (R269, U15). Safe. -/
  | loadingClosed
  /-- `load` of more than 65536 words (R266, U20). Safe. -/
  | imageTooLong
  /-- `load` of an image that overlaps a window (R264, U20). Safe. -/
  | imageOverWindow
  /-- A key or another act of the environment at an index where no device takes one (R251). Safe. -/
  | noSuchDevice
  deriving DecidableEq, Repr

/-! ## Reset -/

/-- All state right after reset under the given parameters (R39, R261). -/
def State.resetWith (p : Config.Params) : State :=
  { regs := Regs.reset
    pc := 0#16
    sp := Config.spResetWord p.spReset
    o := 0#16
    skip := false
    ram := []
    devices := []
    params := p
    phase := .wiring
    outputs := []
    bus := [] }

/-- The machine right after reset, the parameters at the defaults this spec chose (R8, R39; log entries 1 and 14). -/
def State.reset : State := State.resetWith Config.defaults

end Sys2Proof.Machine
end

