-- ==== Sys2Proof/Machine/Ops.lean ====
section
/-! DEFINITION. The named operations over memory, devices, the router and the registers, the two event outputs, and
the one exception (rules R50 to R63, R137, R160 to R164, R230, R245 to R249). -/

namespace Sys2Proof.Machine

/-! ## The word store -/

/-- The word at an index, 0 where nothing is listed (R51). -/
def Memory.lookup : Memory → Nat → Word
  | [], _ => 0#16
  | (k, v) :: m, n => if k = n then v else Memory.lookup m n

/-- The list without any entry at an index. -/
def Memory.remove : Memory → Nat → Memory
  | [], _ => []
  | (k, v) :: m, n => if k = n then Memory.remove m n else (k, v) :: Memory.remove m n

/-- The list with a word entered at an index, the indices still rising. -/
def Memory.enter : Memory → Nat → Word → Memory
  | [], n, v => [(n, v)]
  | (k, u) :: m, n, v =>
    if n < k then (n, v) :: (k, u) :: m
    else if n = k then (n, v) :: m
    else (k, u) :: Memory.enter m n v

/-- `get(address)` on a store of the given capacity: the index is taken modulo the capacity (R50, R51). -/
def Memory.get (capacity : Nat) (m : Memory) (addr : Nat) : Word := Memory.lookup m (addr % capacity)

/-- `put(address, value)` on a store of the given capacity (R50, R52). Storing the word an unlisted index reads as
takes the entry out, so equal contents are equal lists. -/
def Memory.put (capacity : Nat) (m : Memory) (addr : Nat) (v : Word) : Memory :=
  if v = 0#16 then Memory.remove m (addr % capacity) else Memory.enter m (addr % capacity) v

/-- Indices strictly rising, from `low` up. -/
def Memory.rising : Nat → Memory → Bool
  | _, [] => true
  | low, (k, _) :: m => decide (low ≤ k) && Memory.rising (k + 1) m

/-- The canonical form of a store's content: indices rising and below the capacity, no listed 0. -/
def Memory.wf (capacity : Nat) (m : Memory) : Bool :=
  Memory.rising 0 m && m.all (fun c => decide (c.1 < capacity) && c.2 != 0#16)

/-! ## Registers -/

/-- `x[i]` (R11, R21). -/
def Regs.get (g : Regs) : Reg → Word
  | .a => g.a
  | .b => g.b
  | .c => g.c
  | .x => g.x
  | .y => g.y
  | .z => g.z
  | .i => g.i
  | .j => g.j

/-- `x[i] <- v` (R11, R21). -/
def Regs.set (g : Regs) (r : Reg) (v : Word) : Regs :=
  match r with
  | .a => { g with a := v }
  | .b => { g with b := v }
  | .c => { g with c := v }
  | .x => { g with x := v }
  | .y => { g with y := v }
  | .z => { g with z := v }
  | .i => { g with i := v }
  | .j => { g with j := v }

/-- Read general register `r`. -/
def State.reg (s : State) (r : Reg) : Word := s.regs.get r

/-- Write general register `r`. -/
def State.setReg (s : State) (r : Reg) (v : Word) : State := { s with regs := s.regs.set r v }

/-- `pc <- v`. -/
def State.setPc (s : State) (v : Word) : State := { s with pc := v }

/-- `sp <- v`. -/
def State.setSp (s : State) (v : Word) : State := { s with sp := v }

/-- `o <- v`. -/
def State.setO (s : State) (v : Word) : State := { s with o := v }

/-- `skip <- v`. -/
def State.setSkip (s : State) (v : Bool) : State := { s with skip := v }

/-- Send messages to the outside (R160). -/
def State.emit (s : State) (es : List Output) : State := { s with outputs := s.outputs ++ es }

/-! ## Devices -/

/-- The number of words in a device's window (R55); a keyboard has one address (R248). -/
def Device.size : Device → Nat
  | .storing size _ => size
  | .display size _ => size
  | .keyboard _ _ => 1
  | .undescribed size _ => size

/-- What a display shows for a written word: character `v[6:0]`, attributes `v[15:7]`, blank for 0 (R246). -/
def displayCell (v : Word) : DisplayCell :=
  if v = 0#16 then .blank else .glyph (v.extractLsb' 7 9) (v.extractLsb' 0 7)

/-- A device's `get` (R58, R63): the word and the device afterwards. -/
def Device.get (name : String) (base : Nat) (d : Device) (offset : Nat) : Word × Device :=
  match d with
  | .storing size cells => (Memory.get size cells offset, d)
  | .display size cells => (Memory.get size cells offset, d)
  | .keyboard depth fifo =>
    match fifo with
    | [] => (0#16, d)
    | k :: rest => (k, .keyboard depth rest)
  | .undescribed size history =>
    let seen := Config.DeviceEvent.read offset :: history
    (Config.deviceReply name base seen, .undescribed size seen)

/-- A device's `put` (R59, R62): the device afterwards and its effects outside the machine. A keyboard discards a
write (R248, decision D21). -/
def Device.put (name : String) (base : Nat) (d : Device) (offset : Nat) (v : Word) : Device × List Output :=
  match d with
  | .storing size cells => (.storing size (Memory.put size cells offset v), [])
  | .display size cells =>
    (.display size (Memory.put size cells offset (Config.displayStore v)), [.repaint base offset (displayCell v)])
  | .keyboard depth fifo => (.keyboard depth fifo, [])
  | .undescribed size history =>
    let seen := Config.DeviceEvent.write offset v :: history
    (.undescribed size seen, (Config.deviceEffects name base seen).map (.deviceEffect name base))

/-! ## The router -/

/-- Whether an address lies in an installation's window (R57). -/
def Installation.covers (m : Installation) (a : Nat) : Bool :=
  decide (m.base ≤ a) && decide (a < m.base + m.device.size)

/-- Read routing (R58): the first window that holds the address answers, with the offset from its base; else RAM. -/
def routeRead (ram : Memory) : List Installation → Nat → Word × List Installation
  | [], a => (Memory.get Config.ramCapacity ram a, [])
  | m :: ms, a =>
    if m.covers a then
      let r := m.device.get m.name m.base (a - m.base)
      (r.1, { m with device := r.2 } :: ms)
    else
      let r := routeRead ram ms a
      (r.1, m :: r.2)

/-- What a routed write leaves: the RAM, the installations and the effects outside the machine. -/
structure Routed where
  ram : Memory
  devices : List Installation
  effects : List Output
  deriving DecidableEq, Repr

/-- Write routing (R59): the first window that holds the address takes the word; else RAM. -/
def routeWrite (ram : Memory) : List Installation → Nat → Word → Routed
  | [], a, v => ⟨Memory.put Config.ramCapacity ram a v, [], []⟩
  | m :: ms, a, v =>
    if m.covers a then
      let r := m.device.put m.name m.base (a - m.base) v
      ⟨ram, { m with device := r.1 } :: ms, r.2⟩
    else
      let r := routeWrite ram ms a v
      ⟨r.ram, m :: r.devices, r.effects⟩

/-- `MemRead(addr, 1)` (R11, R58): the word and the state after the one access it makes. -/
def State.busRead (s : State) (a : Word) : Word × State :=
  let r := routeRead s.ram s.devices a.toNat
  (r.1, { s with devices := r.2, bus := s.bus ++ [.read a r.1] })

/-- `MemWrite(addr, 1, v)` (R11, R59). A device's effect goes out at once, before the step's events (R72). -/
def State.busWrite (s : State) (a v : Word) : State :=
  let r := routeWrite s.ram s.devices a.toNat v
  { s with
    ram := r.ram
    devices := r.devices
    outputs := s.outputs ++ r.effects
    bus := s.bus ++ [.write a v] }

/-- The word a bus read of an address would return now; nothing changes. -/
def State.peek (s : State) (a : Word) : Word := (s.busRead a).1

/-- The RAM's own word at an address, whether a window lies over it or not (R35, R61). -/
def State.ramWord (s : State) (a : Word) : Word := Memory.get Config.ramCapacity s.ram a.toNat

/-- Whether some window holds an address (R57). -/
def State.inWindow (s : State) (a : Word) : Bool := s.devices.any (fun m => m.covers a.toNat)

/-! ## The exception -/

/-- `raise IllegalOpcode(e)` (R11, R230 to R233): the step ends with the failure and the value `e`, the machine left as it
stands after the one read made so far (R156). Nothing is saved, no mode changes and control goes nowhere inside the
machine; there is no return from it (R234, R238). -/
def raiseIllegalOpcode (e : Field6) (s : State) : Host.Outcome State Fault Refusal := .fault (.illegalOpcode e s)

/-- The end of a normal step: `instructionExecuted` with the PC at its start, then `memoryModified` for the one bus
write, if there was one (R154, R161, R162, R164). -/
def State.finish (s : State) (pc0 : Word) (modified : List Output) : State :=
  s.emit (.instructionExecuted pc0 false :: modified)

end Sys2Proof.Machine
end

