-- ==== Sys2Proof/Machine/Operands.lean ====
section
/-! DEFINITION. The operand resolver: locations, every addressing mode, reading and writing a location, and the order
in which an instruction resolves and reads its operands (rules R120 to R142, R154). -/

namespace Sys2Proof.Machine

/-- What an operand resolves to (R120). -/
inductive Location
  | reg (r : Reg)
  | mem (addr : Word)
  | sp
  | pc
  | o
  | lit (v : Word)
  deriving DecidableEq, Repr

/-- `Resolve(f)` (R121 to R133), on a state whose PC is past the words consumed so far. A mode with an extra word
moves PC past it; POP and PUSH move SP. The extra word itself is in the operand: the fetch has read it. -/
def resolve (op : Operand) (s : State) : Location × State :=
  match op with
  | .reg r => (.reg r, s)
  | .ind r => (.mem (s.reg r), s)
  | .indOff w r => (.mem (w + s.reg r), s.setPc (s.pc + 1#16))
  | .pop => (.mem s.sp, s.setSp (s.sp + 1#16))
  | .peek => (.mem s.sp, s)
  | .push => (.mem (s.sp - 1#16), s.setSp (s.sp - 1#16))
  | .sp => (.sp, s)
  | .pc => (.pc, s)
  | .o => (.o, s)
  | .indNext w => (.mem w, s.setPc (s.pc + 1#16))
  | .litNext w => (.lit w, s.setPc (s.pc + 1#16))
  | .lit v => (.lit (v.setWidth 16), s)

/-- `ReadLoc(L)` (R136): the value, and the state after the bus read that a memory location makes. -/
def readLoc (l : Location) (s : State) : Word × State :=
  match l with
  | .reg r => (s.reg r, s)
  | .mem a => s.busRead a
  | .sp => (s.sp, s)
  | .pc => (s.pc, s)
  | .o => (s.o, s)
  | .lit v => (v, s)

/-- `WriteLoc(L, v)` (R137, R138): a write to a literal is dropped. -/
def writeLoc (l : Location) (v : Word) (s : State) : State :=
  match l with
  | .reg r => s.setReg r v
  | .mem a => s.busWrite a v
  | .sp => s.setSp v
  | .pc => s.setPc v
  | .o => s.setO v
  | .lit _ => s

/-- The memory-modified event of a write to a location: only a memory location sends one (R137, R162). -/
def Location.modified : Location → List Output
  | .mem a => [.memoryModified a]
  | .reg _ => []
  | .sp => []
  | .pc => []
  | .o => []
  | .lit _ => []

/-- A basic instruction whose operands have been resolved and read: the destination's location, the two values, and
the state reached. -/
structure BasicOperands where
  dest : Location
  va : Word
  vb : Word
  st : State
  deriving DecidableEq, Repr

/-- Both operands of a basic instruction resolved, a first (R134), from a state whose PC is at its first word. -/
def resolveBoth (a b : Operand) (s : State) : Location × Location × State :=
  let ra := resolve a (s.setPc (s.pc + 1#16))
  let rb := resolve b ra.2
  (ra.1, rb.1, rb.2)

/-- The operands of every basic instruction but SET: both are resolved, then `va` is read, then `vb` (R135, R154). -/
def readBoth (a b : Operand) (s : State) : BasicOperands :=
  let r := resolveBoth a b s
  let va := readLoc r.1 r.2.2
  let vb := readLoc r.2.1 va.2
  { dest := r.1, va := va.1, vb := vb.1, st := vb.2 }

/-- What SET reads: operand b alone (R154, R156). -/
structure SetOperands where
  dest : Location
  vb : Word
  st : State
  deriving DecidableEq, Repr

/-- The operands of SET: both are resolved, only `vb` is read (R154, R170). -/
def readSource (a b : Operand) (s : State) : SetOperands :=
  let r := resolveBoth a b s
  let vb := readLoc r.2.1 r.2.2
  { dest := r.1, vb := vb.1, st := vb.2 }

/-- The single operand of JSR, resolved and read (R142, R154). -/
def readOperand (a : Operand) (s : State) : Word × State :=
  let r := resolve a (s.setPc (s.pc + 1#16))
  readLoc r.1 r.2

/-- A result stored and the step ended: the common tail of the instructions that write no overflow word. -/
def storeResult (pc0 : Word) (l : Location) (v : Word) (s : State) : State :=
  (writeLoc l v s).finish pc0 l.modified

/-- A result stored, then the overflow word, and the step ended (R157). -/
def storeWithOverflow (pc0 : Word) (l : Location) (v ov : Word) (s : State) : State :=
  ((writeLoc l v s).setO ov).finish pc0 l.modified

/-- A conditional's end: a false condition sets the pending-skip flag (R210). -/
def skipUnless (pc0 : Word) (holds : Bool) (s : State) : State :=
  (if holds then s else s.setSkip true).finish pc0 []

end Sys2Proof.Machine
end

