-- ==== Sys2Proof/Machine/Arithmetic.lean ====
section
/-! DEFINITION. ADD, SUB, MUL, DIV, MOD (rules R175 to R182): results on exact integers, cut to 16 bits (R10). -/

namespace Sys2Proof.Machine

/-- `(va + vb) mod 2^16` (R176). -/
def addResult (va vb : Word) : Word := word (va.toNat + vb.toNat)

/-- `(va - vb) mod 2^16` (R177). -/
def subResult (va vb : Word) : Word := word (va.toNat + 65536 - vb.toNat)

/-- `(va * vb) mod 2^16` (R178). -/
def mulResult (va vb : Word) : Word := word (va.toNat * vb.toNat)

/-- The unsigned quotient, 0 for a zero divisor (R179). -/
def divResult (va vb : Word) : Word := if vb = 0#16 then 0#16 else word (va.toNat / vb.toNat)

/-- The unsigned remainder, 0 for a zero divisor (R180). -/
def modResult (va vb : Word) : Word := if vb = 0#16 then 0#16 else word (va.toNat % vb.toNat)

/-- ADD a, b (R176). -/
def execAdd (a b : Operand) (s : State) : Host.Outcome State Fault Refusal :=
  let r := readBoth a b s
  .next (storeWithOverflow s.pc r.dest (addResult r.va r.vb) (addOverflow r.va r.vb) r.st)

/-- SUB a, b (R177). -/
def execSub (a b : Operand) (s : State) : Host.Outcome State Fault Refusal :=
  let r := readBoth a b s
  .next (storeWithOverflow s.pc r.dest (subResult r.va r.vb) (subOverflow r.va r.vb) r.st)

/-- MUL a, b (R178). -/
def execMul (a b : Operand) (s : State) : Host.Outcome State Fault Refusal :=
  let r := readBoth a b s
  .next (storeWithOverflow s.pc r.dest (mulResult r.va r.vb) (mulOverflow r.va r.vb) r.st)

/-- DIV a, b; a zero divisor gives 0 and O = 0 (R179). -/
def execDiv (a b : Operand) (s : State) : Host.Outcome State Fault Refusal :=
  let r := readBoth a b s
  .next (storeWithOverflow s.pc r.dest (divResult r.va r.vb) (divOverflow r.va r.vb) r.st)

/-- MOD a, b; O is not changed, for a zero divisor either (R180). -/
def execMod (a b : Operand) (s : State) : Host.Outcome State Fault Refusal :=
  let r := readBoth a b s
  .next (storeResult s.pc r.dest (modResult r.va r.vb) r.st)

end Sys2Proof.Machine
end

