-- ==== Sys2Proof/Machine/Conditional.lean ====
section
/-! DEFINITION. IFE, IFN, IFG, IFB (rules R210 to R215): nothing is stored, a false condition sets `skip`. -/

namespace Sys2Proof.Machine

/-- IFE a, b (R211). -/
def execIfe (a b : Operand) (s : State) : Host.Outcome State Fault Refusal :=
  let r := readBoth a b s
  .next (skipUnless s.pc (equalHolds r.va r.vb) r.st)

/-- IFN a, b (R212). -/
def execIfn (a b : Operand) (s : State) : Host.Outcome State Fault Refusal :=
  let r := readBoth a b s
  .next (skipUnless s.pc (differHolds r.va r.vb) r.st)

/-- IFG a, b (R213). -/
def execIfg (a b : Operand) (s : State) : Host.Outcome State Fault Refusal :=
  let r := readBoth a b s
  .next (skipUnless s.pc (greaterHolds r.va r.vb) r.st)

/-- IFB a, b (R214). -/
def execIfb (a b : Operand) (s : State) : Host.Outcome State Fault Refusal :=
  let r := readBoth a b s
  .next (skipUnless s.pc (commonBitHolds r.va r.vb) r.st)

end Sys2Proof.Machine
end

