-- ==== Sys2Proof/Machine/Extended.lean ====
section
/-! DEFINITION. JSR and the undefined extended words (rules R220 to R224). -/

namespace Sys2Proof.Machine

/-- `sp <- sp - 1; MemWrite(sp, 1, v)`: JSR's push (R220). -/
def pushWord (v : Word) (s : State) : State :=
  (s.setSp (s.sp - 1#16)).busWrite (s.sp - 1#16) v

/-- JSR a: read the operand, push the address of the next instruction, go to the value read (R220). -/
def execJsr (a : Operand) (s : State) : Host.Outcome State Fault Refusal :=
  let r := readOperand a s
  .next (((pushWord r.2.pc r.2).setPc r.1).finish s.pc [.memoryModified (r.2.sp - 1#16)])

/-- An undefined extended word executed in a normal step (R221): it raises, and changes nothing (R158). -/
def execUnk (xop _f : Field6) (s : State) : Host.Outcome State Fault Refusal :=
  raiseIllegalOpcode xop s

end Sys2Proof.Machine
end

