-- ==== Sys2Proof/Machine/Logic.lean ====
section
/-! DEFINITION. AND, BOR, XOR (rules R200 to R204). O is unchanged. -/

namespace Sys2Proof.Machine

/-- AND a, b (R201). -/
def execAnd (a b : Operand) (s : State) : Host.Outcome State Fault Refusal :=
  let r := readBoth a b s
  .next (storeResult s.pc r.dest (r.va &&& r.vb) r.st)

/-- BOR a, b, the inclusive or (R202). -/
def execBor (a b : Operand) (s : State) : Host.Outcome State Fault Refusal :=
  let r := readBoth a b s
  .next (storeResult s.pc r.dest (r.va ||| r.vb) r.st)

/-- XOR a, b (R203). -/
def execXor (a b : Operand) (s : State) : Host.Outcome State Fault Refusal :=
  let r := readBoth a b s
  .next (storeResult s.pc r.dest (r.va ^^^ r.vb) r.st)

end Sys2Proof.Machine
end

