-- ==== Sys2Proof/Machine/Move.lean ====
section
/-! DEFINITION. SET (rules R170 to R172). -/

namespace Sys2Proof.Machine

/-- SET a, b: store b's value in a's location; a is not read, O is unchanged (R170). -/
def execSet (a b : Operand) (s : State) : Host.Outcome State Fault Refusal :=
  let r := readSource a b s
  .next (storeResult s.pc r.dest r.vb r.st)

end Sys2Proof.Machine
end

