-- ==== Sys2Proof/Machine/Shift.lean ====
section
/-! DEFINITION. SHL and SHR (rules R190 to R193): the count is the whole value of operand b, 0 to 65535. -/

namespace Sys2Proof.Machine

/-- `(va * 2^vb) mod 2^16` (R191). -/
def shlResult (va vb : Word) : Word := word (va.toNat * 2 ^ vb.toNat)

/-- `floor(va / 2^vb)` (R192). -/
def shrResult (va vb : Word) : Word := word (va.toNat / 2 ^ vb.toNat)

/-- SHL a, b (R191). -/
def execShl (a b : Operand) (s : State) : Host.Outcome State Fault Refusal :=
  let r := readBoth a b s
  .next (storeWithOverflow s.pc r.dest (shlResult r.va r.vb) (shlOverflow r.va r.vb) r.st)

/-- SHR a, b (R192). -/
def execShr (a b : Operand) (s : State) : Host.Outcome State Fault Refusal :=
  let r := readBoth a b s
  .next (storeWithOverflow s.pc r.dest (shrResult r.va r.vb) (shrOverflow r.va r.vb) r.st)

end Sys2Proof.Machine
end

