-- ==== Sys2Proof/Machine/Fetch.lean ====
section
/-! DEFINITION. Fetching an instruction's words and the skip step (rules R65, R75, R141, R152, R153, R156). -/

namespace Sys2Proof.Machine

/-- A step begins: what the step before it sent out and asked of the bus is over, and the host's wiring and loading
are closed (R265, R269; log entries 21 and 22). -/
def State.beginStep (s : State) : State := { s with outputs := [], bus := [], phase := .running }

/-- One word read at an address if `wanted`, else no access. -/
def readIf (wanted : Bool) (a : Word) (s : State) : Word × State :=
  if wanted then s.busRead a else (0#16, s)

/-- The words a normal step fetches: the first word, then as many extra words as it asks for, at the next higher
addresses (R65, R156). -/
structure Fetched where
  first : Word
  extra1 : Word
  extra2 : Word
  st : State
  deriving DecidableEq, Repr

/-- Read the extra words of a first word `w` that a state's PC points at. PC itself moves when the operands are
resolved. -/
def fetchExtra (w : Word) (s : State) : Fetched :=
  let e1 := readIf (decide (1 ≤ wordsToRead w)) (s.pc + 1#16) s
  let e2 := readIf (decide (2 ≤ wordsToRead w)) (s.pc + 2#16) e1.2
  { first := w, extra1 := e1.1, extra2 := e2.1, st := e2.2 }

/-- The instruction of the words fetched. -/
def Fetched.instr (f : Fetched) : Instr := decodeWords f.first f.extra1 f.extra2

/-- The event of a skip step, sent when `SKIP_EVENT` says so (R163). -/
def skipEvents (p : Config.Params) (pc0 : Word) : List Output :=
  if p.skipEvent then [.instructionExecuted pc0 true] else []

/-- The rest of a skip step after its one read `w` (R152, R153): PC moves past the whole instruction, an illegal word
too, and the flag is cleared. -/
def skipOver (w : Word) (s : State) : State :=
  ((s.setPc (s.pc + word (lengthOf w))).setSkip false).emit (skipEvents s.params s.pc)

end Sys2Proof.Machine
end

