-- ==== Sys2Proof/Machine/Step.lean ====
section
/-! DEFINITION. The step (rules R150 to R166), and where a program's first word is put. -/

namespace Sys2Proof.Machine

/-- One step (R40, R150, R151): read the word at PC; if a skip is pending pass over the instruction (R152), else
execute it (R154). -/
def step (s : State) : Host.Outcome State Fault Refusal :=
  let r := s.beginStep.busRead s.pc
  if s.skip then .next (skipOver r.1 r.2)
  else
    let f := fetchExtra r.1 r.2
    exec f.instr f.st

/-- A word put straight into the RAM. -/
def State.setRam (s : State) (a v : Word) : State :=
  { s with ram := Memory.put Config.ramCapacity s.ram a.toNat v }

/-- Whether an installation's window holds one of the three words at an address. -/
def Installation.coversFetch (m : Installation) (pc : Word) : Bool :=
  m.covers pc.toNat || m.covers (pc + 1#16).toNat || m.covers (pc + 2#16).toNat

/-- The state with an instruction's words in the RAM at PC, ready to be fetched by the next step: no skip pending, and
no window over the three words (log entry 23). -/
def State.withFetchWord (s : State) (nbits w : Nat) : State :=
  let n := w % 2 ^ nbits
  let t := { s with skip := false, devices := s.devices.filter (fun m => !m.coversFetch s.pc) }
  ((t.setRam s.pc (tableWord n 0)).setRam (s.pc + 1#16) (tableWord n 1)).setRam (s.pc + 2#16) (tableWord n 2)

end Sys2Proof.Machine
end

