-- ==== Sys2Proof/Machine/Text.lean ====
section
/-! DEFINITION. The text of an instruction (rules R110 to R114), which changes no state. The spec keeps it as the
machine's assembler text, not as hardware (R5); nothing of the step uses it. -/

namespace Sys2Proof.Machine

/-- A number in lower-case hexadecimal with the prefix `0x` and no leading zeros (R112, decision D19). -/
def hexText (n : Nat) : String := "0x" ++ String.ofList (Nat.toDigits 16 n)

/-- A 6-bit number as exactly two hexadecimal digits (R113, decision D19). -/
def hexPair (n : Nat) : String := String.ofList [Nat.digitChar (n / 16), Nat.digitChar (n % 16)]

/-- The letter of a register (R111). -/
def regText : Reg → String
  | .a => "A"
  | .b => "B"
  | .c => "C"
  | .x => "X"
  | .y => "Y"
  | .z => "Z"
  | .i => "I"
  | .j => "J"

/-- The text of an operand (R111). -/
def operandText : Operand → String
  | .reg r => regText r
  | .ind r => "[" ++ regText r ++ "]"
  | .indOff w r => "[" ++ hexText w.toNat ++ "+" ++ regText r ++ "]"
  | .pop => "POP"
  | .peek => "PEEK"
  | .push => "PUSH"
  | .sp => "SP"
  | .pc => "PC"
  | .o => "O"
  | .indNext w => "[" ++ hexText w.toNat ++ "]"
  | .litNext w => hexText w.toNat
  | .lit v => hexText v.toNat

/-- Mnemonic, operand a, a comma and one space, operand b (R110). -/
def basicText (mnemonic : String) (a b : Operand) : String :=
  mnemonic ++ " " ++ operandText a ++ ", " ++ operandText b

/-- The text of an instruction; `e` is the word after the first, which an undefined extended word's operand may need
(R110, R113). -/
def instrText (i : Instr) (e : Word) : String :=
  match i with
  | .set a b => basicText "SET" a b
  | .add a b => basicText "ADD" a b
  | .sub a b => basicText "SUB" a b
  | .mul a b => basicText "MUL" a b
  | .div a b => basicText "DIV" a b
  | .mod a b => basicText "MOD" a b
  | .shl a b => basicText "SHL" a b
  | .shr a b => basicText "SHR" a b
  | .and a b => basicText "AND" a b
  | .bor a b => basicText "BOR" a b
  | .xor a b => basicText "XOR" a b
  | .ife a b => basicText "IFE" a b
  | .ifn a b => basicText "IFN" a b
  | .ifg a b => basicText "IFG" a b
  | .ifb a b => basicText "IFB" a b
  | .jsr a => "JSR " ++ operandText a
  | .unk xop f => "UNK[" ++ hexPair xop.toNat ++ "] " ++ operandText (operandOf f e)

/-- The text of the instruction that begins with `w`, followed in memory by `e1` and `e2`. -/
def wordsText (w e1 e2 : Word) : String := instrText (decodeWords w e1 e2) e1

/-- The text of the instruction at an address. It looks at the words without a bus read's side effects (R113,
conflict C9; log entry 29). -/
def State.textAt (s : State) (a : Word) : String :=
  wordsText (s.peek a) (s.peek (a + 1#16)) (s.peek (a + 2#16))

end Sys2Proof.Machine
end

