-- ==== Sys2Proof/Machine/HostPort.lean ====
section
/-! DEFINITION. What the host and the peripheral environment may do between steps: reset, install, load, observe, and
the environment's acts at a device (rules R44, R45, R53, R57, R248 to R251, R260 to R269). -/

namespace Sys2Proof.Machine

/-- A device as the host names it when it installs one: its kind and its size or depth. -/
inductive DeviceKind
  | storing (size : Nat)
  | display (size : Nat)
  | keyboard (depth : Nat)
  | undescribed (size : Nat)
  deriving DecidableEq, Repr

/-- A device as reset leaves it: window words 0x0000, no buffered key (R39, decision D21). -/
def DeviceKind.fresh : DeviceKind → Device
  | .storing size => .storing size []
  | .display size => .display size []
  | .keyboard depth => .keyboard depth []
  | .undescribed size => .undescribed size []

/-- The kind of a device, which no access changes. -/
def Device.kind : Device → DeviceKind
  | .storing size _ => .storing size
  | .display size _ => .display size
  | .keyboard depth _ => .keyboard depth
  | .undescribed size _ => .undescribed size

/-- What wiring fixes of an installation: base, name and kind, but not the device's own state (R38, R56). -/
def Installation.wiring (m : Installation) : Nat × String × DeviceKind := (m.base, m.name, m.device.kind)

/-- Two windows share an address (R57). -/
def Installation.overlaps (m n : Installation) : Bool :=
  decide (m.base < n.base + n.device.size) && decide (n.base < m.base + m.device.size)

/-- The reset port: all state at the values of R39, RAM too, the installations gone (R260, R261). -/
def State.resetPort (s : State) : State := State.resetWith s.params

/-- `install(peripheral, baseAddress)`: appended to the router's list, before the program is loaded, if the
configuration stays well formed (R45, R56, R57, R264, R265). -/
def State.install (s : State) (name : String) (base : Nat) (k : DeviceKind) : Host.Outcome State Fault Refusal :=
  let m : Installation := { base := base, name := name, device := k.fresh }
  if s.phase ≠ .wiring then .refused .wiringClosed
  else if m.device.size = 0 then .refused .windowEmpty
  else if Config.ramCapacity < base + m.device.size then .refused .windowPastEnd
  else if s.devices.any (fun n => n.overlaps m) then .refused .windowOverlap
  else .next { s with devices := s.devices ++ [m] }

/-- A window holds one of the addresses of an image (R264). -/
def imageMeetsWindow (s : State) : Word → List Word → Bool
  | _, [] => false
  | a, _ :: vs => s.inWindow a || imageMeetsWindow s (a + 1#16) vs

/-- Word after word by the routed `put`, at rising addresses modulo 2^16 (R266). -/
def loadWords : Word → List Word → State → State
  | _, [], s => s
  | a, v :: vs, s => loadWords (a + 1#16) vs (s.busWrite a v)

/-- The loader: word `k` of the image goes to address `offset + k`, before the first step (R264, R266). -/
def State.load (s : State) (offset : Word) (image : List Word) : Host.Outcome State Fault Refusal :=
  if s.phase = .running then .refused .loadingClosed
  else if Config.ramCapacity < image.length then .refused .imageTooLong
  else if imageMeetsWindow s offset image then .refused .imageOverWindow
  else .next { loadWords offset image s with phase := .loaded }

/-- A read through the router's `get` from outside, with the side effect it may have (R44, R248). -/
def State.outsideGet (s : State) (a : Word) : Word × State := s.busRead a

/-- `size()` of the router: the RAM's capacity, the windows not added (R41, R53). -/
def State.routerSize (_s : State) : Nat := Config.ramCapacity

/-- A key is pressed: its code goes to the end of the buffer, and is dropped if the buffer is full (R249). -/
def Device.key (code : Word) : Device → Option Device
  | .keyboard depth fifo => some (.keyboard depth (if fifo.length < depth then fifo ++ [code] else fifo))
  | .storing _ _ => none
  | .display _ _ => none
  | .undescribed _ _ => none

/-- The environment acts at a device the spec does not describe: what it does there is the device's own affair, so
the act is only recorded (R251). -/
def Device.act (code : Nat) : Device → Option Device
  | .undescribed size history => some (.undescribed size (.environment code :: history))
  | .storing _ _ => none
  | .display _ _ => none
  | .keyboard _ _ => none

/-- The list with one installation's device changed, if that device takes the change. -/
def changeDevice (f : Device → Option Device) : List Installation → Nat → Option (List Installation)
  | [], _ => none
  | m :: ms, 0 => (f m.device).map (fun d => { m with device := d } :: ms)
  | m :: ms, n + 1 => (changeDevice f ms n).map (fun ms' => m :: ms')

/-- An act of the peripheral environment between two steps, at the `n`-th installation: device state alone changes
(R78, R251). -/
def State.environment (s : State) (f : Device → Option Device) (n : Nat) : Host.Outcome State Fault Refusal :=
  match changeDevice f s.devices n with
  | some ds => .next { s with devices := ds }
  | none => .refused .noSuchDevice

/-- A key pressed at the `n`-th installation (R249). -/
def State.pressKey (s : State) (n : Nat) (code : Word) : Host.Outcome State Fault Refusal :=
  s.environment (Device.key code) n

/-- Any act of the environment at the `n`-th installation, a device without a description (R250, R251). -/
def State.environmentAct (s : State) (n code : Nat) : Host.Outcome State Fault Refusal :=
  s.environment (Device.act code) n

end Sys2Proof.Machine
end

