-- ==== Sys2Proof/Safety.lean ====
section
/-! DEFINITION. The terms claims use: well-formed states, reachable states, safe runs, and where a result went. -/

namespace Sys2Proof.Machine

/-! ## Well-formed states -/

/-- A device's own state has its form: a window's content is canonical within its size, a key buffer is within its
depth (R50, R249). -/
def Device.wf : Device → Bool
  | .storing size cells => Memory.wf size cells
  | .display size cells => Memory.wf size cells
  | .keyboard depth fifo => decide (fifo.length ≤ depth)
  | .undescribed _ _ => true

/-- One window by itself: at least one word, and none past address 0xFFFF (R57). -/
def Installation.wf (m : Installation) : Bool :=
  decide (1 ≤ m.device.size) && decide (m.base + m.device.size ≤ Config.ramCapacity) && m.device.wf

/-- Every window well formed and no two sharing an address (R57). -/
def windowsWf : List Installation → Bool
  | [] => true
  | m :: ms => m.wf && ms.all (fun n => !m.overlaps n) && windowsWf ms

/-- The invariant of the model: canonical RAM, and a well-formed configuration of well-formed devices. -/
def State.wf (s : State) : Bool := Memory.wf Config.ramCapacity s.ram && windowsWf s.devices

/-! ## Runs -/

/-- What the host and the environment can bring about: reset, then any of the moves of R269 and the environment's acts
of R251, in any order the machine accepts; the state a failing step leaves is one the host can look at, reset, or step again
(R234). -/
inductive Reachable : State → Prop
  | reset (p : Config.Params) : Reachable (State.resetWith p)
  | resetPort {s : State} : Reachable s → Reachable s.resetPort
  | install {s t : State} (name : String) (base : Nat) (k : DeviceKind) :
      Reachable s → s.install name base k = .next t → Reachable t
  | load {s t : State} (offset : Word) (image : List Word) : Reachable s → s.load offset image = .next t → Reachable t
  | outsideGet {s : State} (a : Word) : Reachable s → Reachable (s.outsideGet a).2
  | pressKey {s t : State} (n : Nat) (code : Word) : Reachable s → s.pressKey n code = .next t → Reachable t
  | environmentAct {s t : State} (n code : Nat) : Reachable s → s.environmentAct n code = .next t → Reachable t
  | step {s t : State} : Reachable s → step s = .next t → Reachable t
  | raised {s t : State} (xop : Field6) : Reachable s → step s = .fault (.illegalOpcode xop t) → Reachable t

/-- A run of `k` steps that meets no IllegalOpcode (R165, R271). -/
def SafeFor (k : Nat) (s : State) : Prop := ∃ t, Sys2Proof.core.run k s = .next t

end Sys2Proof.Machine

namespace Sys2Proof

/-! ## Operands and instructions by what they do -/

/-- How an operand's resolution moves SP: up for POP, down for PUSH, not at all otherwise (R125, R127). -/
def spMove : Operand → Word
  | .pop => 1#16
  | .push => 0xFFFF#16
  | .reg _ => 0#16
  | .ind _ => 0#16
  | .indOff _ _ => 0#16
  | .peek => 0#16
  | .sp => 0#16
  | .pc => 0#16
  | .o => 0#16
  | .indNext _ => 0#16
  | .litNext _ => 0#16
  | .lit _ => 0#16

/-- The address of the memory word an operand names, from the registers and SP before it is resolved; none if it names
no memory word (R122 to R133). -/
def Operand.address (a : Operand) (s : Machine.State) : Option Word :=
  match a with
  | .ind r => some (s.reg r)
  | .indOff w r => some (w + s.reg r)
  | .pop => some s.sp
  | .peek => some s.sp
  | .push => some (s.sp - 1#16)
  | .indNext w => some w
  | .reg _ => none
  | .sp => none
  | .pc => none
  | .o => none
  | .litNext _ => none
  | .lit _ => none

/-- How many words an operand consumes, as a word (R96). -/
def extraCount (a : Operand) : Word := word (operandExtra a).length

/-- A literal: a constant that a write does not change (R138). -/
def Operand.isLiteral : Operand → Bool
  | .litNext _ => true
  | .lit _ => true
  | .reg _ => false
  | .ind _ => false
  | .indOff _ _ => false
  | .pop => false
  | .peek => false
  | .push => false
  | .sp => false
  | .pc => false
  | .o => false
  | .indNext _ => false

/-- The instructions that have an operation: all but the undefined extended words (R221). -/
def Instr.isDefined : Instr → Bool
  | .unk _ _ => false
  | .set _ _ => true
  | .add _ _ => true
  | .sub _ _ => true
  | .mul _ _ => true
  | .div _ _ => true
  | .mod _ _ => true
  | .shl _ _ => true
  | .shr _ _ => true
  | .and _ _ => true
  | .bor _ _ => true
  | .xor _ _ => true
  | .ife _ _ => true
  | .ifn _ _ => true
  | .ifg _ _ => true
  | .ifb _ _ => true
  | .jsr _ => true

/-- The operands of an instruction that stores a result in its operand a (R156, access 6). -/
def Instr.stores : Instr → Option (Operand × Operand)
  | .set a b => some (a, b)
  | .add a b => some (a, b)
  | .sub a b => some (a, b)
  | .mul a b => some (a, b)
  | .div a b => some (a, b)
  | .mod a b => some (a, b)
  | .shl a b => some (a, b)
  | .shr a b => some (a, b)
  | .and a b => some (a, b)
  | .bor a b => some (a, b)
  | .xor a b => some (a, b)
  | .ife _ _ => none
  | .ifn _ _ => none
  | .ifg _ _ => none
  | .ifb _ _ => none
  | .jsr _ => none
  | .unk _ _ => none

/-- The operands of a conditional (R210). -/
def Instr.compares : Instr → Option (Operand × Operand)
  | .ife a b => some (a, b)
  | .ifn a b => some (a, b)
  | .ifg a b => some (a, b)
  | .ifb a b => some (a, b)
  | .set _ _ => none
  | .add _ _ => none
  | .sub _ _ => none
  | .mul _ _ => none
  | .div _ _ => none
  | .mod _ _ => none
  | .shl _ _ => none
  | .shr _ _ => none
  | .and _ _ => none
  | .bor _ _ => none
  | .xor _ _ => none
  | .jsr _ => none
  | .unk _ _ => none

/-- The instructions that write an overflow word on every execution (R29). -/
def Instr.writesOverflow : Instr → Bool
  | .add _ _ => true
  | .sub _ _ => true
  | .mul _ _ => true
  | .div _ _ => true
  | .shl _ _ => true
  | .shr _ _ => true
  | .set _ _ => false
  | .mod _ _ => false
  | .and _ _ => false
  | .bor _ _ => false
  | .xor _ _ => false
  | .ife _ _ => false
  | .ifn _ _ => false
  | .ifg _ _ => false
  | .ifb _ _ => false
  | .jsr _ => false
  | .unk _ _ => false

/-- What a conditional asks of its two values, as the spec puts it (R211 to R214). -/
def Instr.asks (i : Instr) (va vb : Word) : Prop :=
  match i with
  | .ife _ _ => va = vb
  | .ifn _ _ => va ≠ vb
  | .ifg _ _ => vb.toNat < va.toNat
  | .ifb _ _ => ∃ k, va.getLsbD k = true ∧ vb.getLsbD k = true
  | .set _ _ => True
  | .add _ _ => True
  | .sub _ _ => True
  | .mul _ _ => True
  | .div _ _ => True
  | .mod _ _ => True
  | .shl _ _ => True
  | .shr _ _ => True
  | .and _ _ => True
  | .bor _ _ => True
  | .xor _ _ => True
  | .jsr _ => True
  | .unk _ _ => True

/-- Every word whose low four bits are `op` is the basic instruction `c`, its operands those of the two fields, a's
extra word first (R91, R95, R97). -/
def EncodedAs (op : Nat) (c : Operand → Operand → Instr) : Prop :=
  ∀ w e1 e2 : Word, w.toNat % 16 = op →
    let fa : Field6 := BitVec.ofNat 6 (w.toNat / 16)
    let fb : Field6 := BitVec.ofNat 6 (w.toNat / 1024)
    decodeWords w e1 e2 = c (operandOf fa e1) (operandOf fb (if extra fa = 1 then e2 else e1))

end Sys2Proof

namespace Sys2Proof.Machine

/-! ## A step's fetch and its bus accesses -/

/-- What a normal step of a state fetches, before it executes anything (R154). -/
def State.fetched (s : State) : Fetched :=
  fetchExtra (s.beginStep.busRead s.pc).1 (s.beginStep.busRead s.pc).2

/-- The address of a bus access. -/
def BusAccess.addr : BusAccess → Word
  | .read a _ => a
  | .write a _ => a

/-- The address a bus access writes, if it is a write. -/
def BusAccess.written : BusAccess → Option Word
  | .read _ _ => none
  | .write a _ => some a

/-- A bus access without the word it moved. -/
inductive BusRequest
  | get (addr : Word)
  | put (addr : Word)
  deriving DecidableEq, Repr

/-- The request of a bus access. -/
def BusAccess.request : BusAccess → BusRequest
  | .read a _ => .get a
  | .write a _ => .put a

/-- The requests that fetch an instruction of `n` extra words at an address (R156, accesses 1 to 3). -/
def fetchRequests (pc : Word) (n : Nat) : List BusRequest :=
  .get pc :: ((if 1 ≤ n then [.get (pc + 1#16)] else []) ++ (if 2 ≤ n then [.get (pc + 2#16)] else []))

/-- The request that reads a location: one if it is a memory location (R136). -/
def Location.getRequests : Location → List BusRequest
  | .mem a => [.get a]
  | .reg _ => []
  | .sp => []
  | .pc => []
  | .o => []
  | .lit _ => []

/-- The request that writes a location: one if it is a memory location (R137). -/
def Location.putRequests : Location → List BusRequest
  | .mem a => [.put a]
  | .reg _ => []
  | .sp => []
  | .pc => []
  | .o => []
  | .lit _ => []

/-! ## Where a result went -/

/-- From `s` to `t` a word `v` was written to `l`, and O ended as `o'` (R137, R138): the location holds `v` (a literal
drops it); every other register, and every RAM word that is not the location, is as it was, and so are `skip`, the
parameters, the phase and the wiring. A memory location took exactly one bus write, of `v` at its address, and the devices
are what that write makes of them (R59, R62); for any other location devices and bus trace are as they were. The outputs
alone are not spoken of. -/
def Wrote (l : Location) (v o' : Word) (s t : State) : Prop :=
  (∀ r, t.reg r = if l = .reg r then v else s.reg r) ∧
  t.sp = (if l = .sp then v else s.sp) ∧
  t.pc = (if l = .pc then v else s.pc) ∧
  t.o = o' ∧
  t.skip = s.skip ∧
  t.params = s.params ∧
  t.phase = s.phase ∧
  t.devices.map Installation.wiring = s.devices.map Installation.wiring ∧
  (∀ a, t.ramWord a = if l = .mem a ∧ s.inWindow a = false then v else s.ramWord a) ∧
  (∀ a, l = .mem a → t.devices = (s.busWrite a v).devices ∧ t.bus = s.bus ++ [.write a v]) ∧
  ((∀ a, l ≠ .mem a) → t.devices = s.devices ∧ t.bus = s.bus)

end Sys2Proof.Machine
end

