-- ==== Sys2Proof/Certificates/Slice0/Obligations.lean ====
section
/-! DEFINITION. The statements for the provers. Each docstring names the rule it formalises; where a clause rests on a
choice of the spec or of the model, it names the log entry (notes/assumptions). -/

open Sys2Proof Sys2Proof.Machine

/-! ## Encoding -/

/-- R90, R96, R103: the length of an instruction is 1, 2 or 3 words and is read off the first word's fields alone; a
field counts when it lies in 0x10 to 0x17 or is 0x1E or 0x1F; an extended word counts its top field only. -/
def Obligations.LengthFromFirstWord : Prop :=
  ∀ w : Word,
    let counts : Nat → Nat := fun f => if f ∈ [0x10, 0x11, 0x12, 0x13, 0x14, 0x15, 0x16, 0x17, 0x1E, 0x1F] then 1 else 0
    (1 ≤ lengthOf w ∧ lengthOf w ≤ 3) ∧
    (w.toNat % 16 = 0 → lengthOf w = 1 + counts (w.toNat / 1024)) ∧
    (w.toNat % 16 ≠ 0 → lengthOf w = 1 + counts (w.toNat / 16 % 64) + counts (w.toNat / 1024))

/-- A few words written out from the spec (test vectors S1, S2, and 2.1) and the instructions they stand for. -/
def Obligations.WordsOfTheSpecDecode : Prop :=
  decode [0x7c01#16, 0x0030#16] = .ok (.set (.reg .a) (.litNext 0x0030#16), []) ∧
  decode [0x7de1#16, 0x1000#16, 0x0020#16] = .ok (.set (.indNext 0x1000#16) (.litNext 0x0020#16), []) ∧
  decode [0x7803#16, 0x1000#16] = .ok (.sub (.reg .a) (.indNext 0x1000#16), []) ∧
  decode [0xc00d#16] = .ok (.ifn (.reg .a) (.lit 16#5), []) ∧
  decode [0x4501#16, 0x0001#16, 0x0002#16] = .ok (.set (.indOff 0x0001#16 .a) (.indOff 0x0002#16 .b), []) ∧
  decode [0x61c1#16] = .ok (.set .pc .pop, []) ∧
  decode [0xffff#16] = .ok (.ifb (.lit 31#5) (.lit 31#5), []) ∧
  decode [0x7c10#16, 0x0006#16] = .ok (.jsr (.litNext 0x0006#16), []) ∧
  decode [0x63f0#16] = .ok (.unk 0x3F#6 0x18#6, []) ∧
  decode [0x7c01#16] = .error .missingExtraWord

/-- Decode and encode agree (R91, R92, R94, R95): the words of a defined instruction decode to it, whatever follows them,
with every operand at every value; an undefined extended word's first word decodes to it. -/
def Obligations.DecodeOfEncode : Prop :=
  ∀ i : Instr, i.wellFormed = true →
    (i.isDefined = true → ∀ rest, decode (encode i ++ rest) = .ok (i, rest)) ∧ decode (encode i) = .ok (i, [])

/-- The other direction (R102): every first word, with any words after it, decodes to a well-formed instruction whose
encoding is that word and the words a normal step reads after it: no two meanings, no word without one. For an undefined
extended word those are none, even where R96 counts an extra word in its length: a normal step raises before it reads one
(R158), and that its encoding is its first word alone is the model's choice (log entry 25). -/
def Obligations.EncodeOfDecode : Prop :=
  ∀ w e1 e2 : Word,
    (decodeWords w e1 e2).wellFormed = true ∧ encode (decodeWords w e1 e2) = [w, e1, e2].take (1 + wordsToRead w)

/-- R97, R98 and the opcode table: every word matches exactly one row, and that row's mnemonic is the decoded
instruction's. -/
def Obligations.EachWordMatchesOneRow : Prop :=
  ∀ w e1 e2 : Word, ∃ r, opcodeTable.filter (rowMatches w) = [r] ∧ r.mnemonic = (decodeWords w e1 e2).mnemonic

/-- R100, R101, R102: the undefined words are exactly those with `w[3:0] = 0` and `w[9:4]` other than 1, and they decode to
their two fields; the words of JSR are exactly those with 0x10 in the low ten bits; every other word is a basic
instruction. -/
def Obligations.UndefinedWordsExactly : Prop :=
  ∀ w e1 e2 : Word,
    let i := decodeWords w e1 e2
    (i.isDefined = false ↔ w.toNat % 16 = 0 ∧ w.toNat / 16 % 64 ≠ 1) ∧
    (i.isDefined = false → i = .unk (BitVec.ofNat 6 (w.toNat / 16)) (BitVec.ofNat 6 (w.toNat / 1024))) ∧
    ((∃ a, i = .jsr a) ↔ w.toNat % 1024 = 0x10) ∧
    (w.toNat % 16 ≠ 0 ↔ i.stores.isSome = true ∨ i.compares.isSome = true)

/-! ## Reset -/

/-- R261: reset, from any state, leaves the registers, PC and O at 0, SP at `SP_RESET` (either value), `skip` false, every
RAM word 0 and no installation. -/
def Obligations.ResetClearsEverything : Prop :=
  ∀ s : State,
    (∀ r, s.resetPort.reg r = 0#16) ∧ s.resetPort.pc = 0#16 ∧ s.resetPort.o = 0#16 ∧
    s.resetPort.sp = (match s.params.spReset with | .zero => 0x0000#16 | .ones => 0xFFFF#16) ∧
    s.resetPort.skip = false ∧ (∀ a, s.resetPort.ramWord a = 0#16) ∧ s.resetPort.devices = []

/-- The invariant `State.wf` holds right after reset, under the default parameters and under any others. -/
def Obligations.ResetIsWellFormed : Prop :=
  State.reset.wf = true ∧ ∀ p, (State.resetWith p).wf = true

/-- R276: with nothing loaded the first step reads 0x0000 at address 0 and answers IllegalOpcode(0x00), the machine left as
reset made it; the phase and the trace of that read are the model's own fields (log entries 21 and 22). -/
def Obligations.EmptyMachineRaises : Prop :=
  ∀ p, step (State.resetWith p) = .fault (.illegalOpcode 0#6
    { State.resetWith p with phase := .running, bus := [.read 0#16 0x0000#16] })

/-! ## Memory and the router -/

/-- R51, R52, R71 at the bus: after a write to an address outside the windows, a read of that address gives the word
written, and a read of any other address, in a window or not, gives what it gave before. -/
def Obligations.BusReadAfterWrite : Prop :=
  ∀ (s : State) (a v b : Word), s.inWindow a = false →
    (s.busWrite a v).peek b = (if b = a then v else s.peek b) ∧ (s.busWrite a v).devices = s.devices

/-- R58: a bus read makes exactly one access, to the first window in installation order that holds the address, with the
offset from its base, or else to the RAM. The trace `bus` that counts the accesses is the model's own field (log entry 21). -/
def Obligations.ReadRouting : Prop :=
  ∀ (s : State) (a : Word),
    ((∀ m ∈ s.devices, ¬(m.base ≤ a.toNat ∧ a.toNat < m.base + m.device.size)) →
      (s.busRead a).1 = s.ramWord a ∧ (s.busRead a).2 = { s with bus := s.bus ++ [.read a (s.ramWord a)] }) ∧
    (∀ pre m post, s.devices = pre ++ m :: post →
      (∀ n ∈ pre, ¬(n.base ≤ a.toNat ∧ a.toNat < n.base + n.device.size)) →
      m.base ≤ a.toNat → a.toNat < m.base + m.device.size →
      let r := m.device.get m.name m.base (a.toNat - m.base)
      (s.busRead a).1 = r.1 ∧
      (s.busRead a).2 = { s with devices := pre ++ { m with device := r.2 } :: post, bus := s.bus ++ [.read a r.1] })

/-- R59: a bus write goes to exactly one target: the first window in installation order that holds the address, with the
offset from its base, and then not to the RAM; or else to the RAM word. -/
def Obligations.WriteRouting : Prop :=
  ∀ (s : State) (a v : Word),
    ((∀ m ∈ s.devices, ¬(m.base ≤ a.toNat ∧ a.toNat < m.base + m.device.size)) →
      (s.busWrite a v).devices = s.devices ∧ (s.busWrite a v).outputs = s.outputs ∧
      ∀ b, (s.busWrite a v).ramWord b = if b = a then v else s.ramWord b) ∧
    (∀ pre m post, s.devices = pre ++ m :: post →
      (∀ n ∈ pre, ¬(n.base ≤ a.toNat ∧ a.toNat < n.base + n.device.size)) →
      m.base ≤ a.toNat → a.toNat < m.base + m.device.size →
      let r := m.device.put m.name m.base (a.toNat - m.base) v
      (s.busWrite a v).devices = pre ++ { m with device := r.1 } :: post ∧
      (s.busWrite a v).outputs = s.outputs ++ r.2 ∧
      ∀ b, (s.busWrite a v).ramWord b = s.ramWord b)

/-- R248, R249 with decision D21 (log entry 6): a bus read of a keyboard's address pops the oldest key code, and answers 0
and changes nothing when there is none; a write changes nothing; a key pressed goes to the end of the buffer, and is
dropped when the buffer is full. -/
def Obligations.KeyboardBuffer : Prop :=
  ∀ (s : State) (pre post : List Installation) (name : String) (depth : Nat) (fifo : List Word) (a code : Word),
    s.devices = pre ++ { base := a.toNat, name := name, device := .keyboard depth fifo } :: post →
    (∀ n ∈ pre, n.covers a.toNat = false) →
    (s.busRead a).1 = fifo.headD 0#16 ∧
    (s.busRead a).2.devices = pre ++ { base := a.toNat, name := name, device := .keyboard depth fifo.tail } :: post ∧
    (s.busWrite a code).devices = s.devices ∧
    s.pressKey pre.length code = .next { s with devices := pre ++
      { base := a.toNat, name := name,
        device := .keyboard depth (if fifo.length < depth then fifo ++ [code] else fifo) } :: post }

/-- R246, R247: a word written to a display window is stored as `DISPLAY_STORE` of it and read back so; the write repaints
one cell, which is blank for 0 and else shows the low seven bits with the attributes above them; the RAM is untouched.
`DISPLAY_STORE` is a free value (log entry 4). -/
def Obligations.DisplayWindow : Prop :=
  ∀ (s : State) (pre post : List Installation) (base size offset : Nat) (name : String) (cells : Memory) (v : Word),
    s.devices = pre ++ { base := base, name := name, device := .display size cells } :: post →
    (∀ n ∈ pre, n.covers (base + offset) = false) → offset < size → base + size ≤ 65536 →
    let t := s.busWrite (word (base + offset)) v
    t.peek (word (base + offset)) = Config.displayStore v ∧ t.ram = s.ram ∧
    ∃ cell, t.outputs = s.outputs ++ [.repaint base offset cell] ∧
      (v = 0#16 → cell = .blank) ∧
      (v ≠ 0#16 → ∃ attributes character, cell = .glyph attributes character ∧
        v.toNat = attributes.toNat * 128 + character.toNat)

/-- R266 with decision D12 (log entry 17): a load is admitted exactly before the first step, for an image of at most 65536
words that meets no window; it then leaves word `k` at RAM address `offset + k` modulo 2^16, every other RAM word as it
was, and the registers and devices as they were; an image of more than 65536 words is refused. -/
def Obligations.LoadPlacesImage : Prop :=
  (∀ (s t : State) (offset : Word) (image : List Word), s.load offset image = .next t →
    (∀ (k : Nat) (h : k < image.length), t.ramWord (offset + word k) = image[k]) ∧
    (∀ a, (∀ k < image.length, a ≠ offset + word k) → t.ramWord a = s.ramWord a) ∧
    t.regs = s.regs ∧ t.pc = s.pc ∧ t.sp = s.sp ∧ t.o = s.o ∧ t.skip = s.skip ∧ t.devices = s.devices) ∧
  (∀ (s : State) (offset : Word) (image : List Word), 65536 < image.length → ∀ t, s.load offset image ≠ .next t) ∧
  (∀ (s : State) (offset : Word) (image : List Word), (∃ t, s.load offset image = .next t) ↔
    s.phase ≠ .running ∧ image.length ≤ 65536 ∧ ∀ k < image.length, s.inWindow (offset + word k) = false)

/-- R57, R264 with decisions D11 and D12 (log entries 16 and 17): a window is installed exactly when neither loading nor
stepping has begun, it holds a word, does not pass address 0xFFFF and shares no address with an installed one; the
configuration stays well formed. -/
def Obligations.InstallAdmitsWellFormed : Prop :=
  ∀ (s : State) (name : String) (base : Nat) (k : DeviceKind), s.wf = true →
    let m : Installation := { base := base, name := name, device := k.fresh }
    ((∃ t, s.install name base k = .next t) ↔
      s.phase = .wiring ∧ 1 ≤ m.device.size ∧ base + m.device.size ≤ 65536 ∧
        ∀ n ∈ s.devices, ∀ a, ¬(n.covers a = true ∧ m.covers a = true)) ∧
    (∀ t, s.install name base k = .next t → t = { s with devices := s.devices ++ [m] } ∧ t.wf = true)

/-- R264, R265, R269 with decision D12 (log entry 17): the host's order. Once the program is loaded or stepping has begun
every install is refused; once stepping has begun every load is refused too. Reset opens the wiring; a load that succeeds
closes it; a step closes both, one that raises too; install, a read from outside and the environment move nothing on. The phase
itself is the model's own field (log entry 22). -/
def Obligations.HostOrder : Prop :=
  ∀ s : State,
    (s.phase ≠ .wiring → ∀ name base k, s.install name base k = .refused .wiringClosed) ∧
    (s.phase = .running → ∀ offset image, s.load offset image = .refused .loadingClosed) ∧
    s.resetPort.phase = .wiring ∧
    (∀ name base k t, s.install name base k = .next t → t.phase = .wiring) ∧
    (∀ offset image t, s.load offset image = .next t → t.phase = .loaded) ∧
    (∀ t, step s = .next t → t.phase = .running) ∧
    (∀ xop t, step s = .fault (.illegalOpcode xop t) → t.phase = .running) ∧
    (∀ a, (s.outsideGet a).2.phase = s.phase) ∧
    (∀ n key t, s.pressKey n key = .next t → t.phase = s.phase) ∧
    (∀ n code t, s.environmentAct n code = .next t → t.phase = s.phase)

/-- R50 to R52 behind R58, R59 (vector S6): in a plain storing window the address written reads as the word written, every
other address, in this window or not, as before; the RAM is untouched, nothing is sent out, and a read changes no device. -/
def Obligations.StoringWindow : Prop :=
  ∀ (s : State) (pre post : List Installation) (base size offset : Nat) (name : String) (cells : Memory) (v : Word),
    s.devices = pre ++ { base := base, name := name, device := .storing size cells } :: post →
    (∀ n ∈ pre, n.covers (base + offset) = false) → offset < size → base + size ≤ 65536 →
    let a := word (base + offset)
    let t := s.busWrite a v
    (∀ b, t.peek b = if b = a then v else s.peek b) ∧ t.ram = s.ram ∧ t.outputs = s.outputs ∧
    (s.busRead a).2.devices = s.devices

/-- R62, R63, R250: a device the spec does not describe. A read of its window answers the free reply, a write sends out
the free effects; both may depend on everything that has happened at the device, the access included, and the RAM is
untouched. Reply, effects and history are the model's own (log entry 5). -/
def Obligations.UndescribedDevice : Prop :=
  ∀ (s : State) (pre post : List Installation) (base size offset : Nat) (name : String)
    (history : List Config.DeviceEvent) (v : Word),
    s.devices = pre ++ { base := base, name := name, device := .undescribed size history } :: post →
    (∀ n ∈ pre, n.covers (base + offset) = false) → offset < size → base + size ≤ 65536 →
    let a := word (base + offset)
    let seen (h : List Config.DeviceEvent) : List Installation :=
      pre ++ { base := base, name := name, device := .undescribed size h } :: post
    (s.busRead a).1 = Config.deviceReply name base (.read offset :: history) ∧
    (s.busRead a).2.devices = seen (.read offset :: history) ∧
    (s.busWrite a v).devices = seen (.write offset v :: history) ∧ (s.busWrite a v).ram = s.ram ∧
    (s.busWrite a v).outputs =
      s.outputs ++ (Config.deviceEffects name base (.write offset v :: history)).map (.deviceEffect name base)

/-! ## Operands -/

/-- R122, R123, R126, R133: the fields 0x00 to 0x07 name a register, 0x08 to 0x0F the word it points at, 0x19 the word SP
points at, 0x20 to 0x3F the values 0 to 31; none of them has an extra word or changes any state. Their texts are the
register letter, the letter in brackets, `PEEK` and the value in hexadecimal. The numbers of B to J are the spec's inference (R20,
log entry 19). -/
def Obligations.PlainFieldsResolve : Prop :=
  ∀ (f : Field6) (w : Word) (s : State),
    let regs : List Reg := [.a, .b, .c, .x, .y, .z, .i, .j]
    (∀ (n : Nat) (h : n < regs.length), f.toNat = n →
      resolve (operandOf f w) s = (.reg regs[n], s) ∧ extra f = 0 ∧ operandText (operandOf f w) = regText regs[n]) ∧
    (∀ (n : Nat) (h : n < regs.length), f.toNat = 0x08 + n →
      resolve (operandOf f w) s = (.mem (s.reg regs[n]), s) ∧ extra f = 0 ∧
      operandText (operandOf f w) = "[" ++ regText regs[n] ++ "]") ∧
    (f.toNat = 0x19 →
      resolve (operandOf f w) s = (.mem s.sp, s) ∧ extra f = 0 ∧ operandText (operandOf f w) = "PEEK") ∧
    (0x20 ≤ f.toNat →
      resolve (operandOf f w) s = (.lit (word (f.toNat - 0x20)), s) ∧ extra f = 0 ∧
      operandText (operandOf f w) = hexText (f.toNat - 0x20))

/-- R124, R125, R127 to R132: the other modes. A mode with an extra word names `w + register`, `w` itself as an address, or
the constant `w`, and moves PC past the word; POP names the word at SP and raises SP, PUSH lowers SP and names the word
there, all modulo 2^16; SP, PC and O name themselves. That PUSH lowers SP as a source too is the spec's inference (R127,
log entry 20). -/
def Obligations.MovingFieldsResolve : Prop :=
  ∀ (f : Field6) (w : Word) (s : State),
    let regs : List Reg := [.a, .b, .c, .x, .y, .z, .i, .j]
    (∀ (n : Nat) (h : n < regs.length), f.toNat = 0x10 + n →
      resolve (operandOf f w) s =
        (.mem (word (w.toNat + (s.reg regs[n]).toNat)), { s with pc := word (s.pc.toNat + 1) }) ∧ extra f = 1) ∧
    (f.toNat = 0x18 → resolve (operandOf f w) s = (.mem s.sp, { s with sp := word (s.sp.toNat + 1) }) ∧ extra f = 0) ∧
    (f.toNat = 0x1A →
      resolve (operandOf f w) s = (.mem (word (s.sp.toNat + 65535)), { s with sp := word (s.sp.toNat + 65535) }) ∧
      extra f = 0) ∧
    (f.toNat = 0x1B → resolve (operandOf f w) s = (.sp, s) ∧ extra f = 0) ∧
    (f.toNat = 0x1C → resolve (operandOf f w) s = (.pc, s) ∧ extra f = 0) ∧
    (f.toNat = 0x1D → resolve (operandOf f w) s = (.o, s) ∧ extra f = 0) ∧
    (f.toNat = 0x1E → resolve (operandOf f w) s = (.mem w, { s with pc := word (s.pc.toNat + 1) }) ∧ extra f = 1) ∧
    (f.toNat = 0x1F → resolve (operandOf f w) s = (.lit w, { s with pc := word (s.pc.toNat + 1) }) ∧ extra f = 1)

/-- R121, R134, R155: what the operands of an instruction do before its operation. PC ends past every word of the
instruction, SP takes the moves of both operands; the registers, O, `skip`, the RAM, the outputs, the parameters and the
wiring are as they were. The order of the SP moves (log entry 20) does not show in this sum. -/
def Obligations.OperandPhaseFrame : Prop :=
  ∀ (a b : Operand) (s : State),
    let same (t : State) : Prop :=
      t.regs = s.regs ∧ t.o = s.o ∧ t.skip = s.skip ∧ t.ram = s.ram ∧ t.outputs = s.outputs ∧ t.params = s.params ∧
      t.phase = s.phase ∧ t.devices.map Installation.wiring = s.devices.map Installation.wiring
    (same (readBoth a b s).st ∧ (readBoth a b s).st.pc = s.pc + 1#16 + extraCount a + extraCount b ∧
      (readBoth a b s).st.sp = s.sp + spMove a + spMove b) ∧
    (same (readSource a b s).st ∧ (readSource a b s).st.pc = s.pc + 1#16 + extraCount a + extraCount b ∧
      (readSource a b s).st.sp = s.sp + spMove a + spMove b) ∧
    (same (readOperand a s).2 ∧ (readOperand a s).2.pc = s.pc + 1#16 + extraCount a ∧
      (readOperand a s).2.sp = s.sp + spMove a)

/-- R135, R136 with decision D2 (log entry 7): the values of SP and PC as operands are those after BOTH operands have been
resolved; a register, O and a literal, inline ones too, are read as they are; and POP as the second of two POPs names the
next word up (R134, log entry 20). What a memory operand reads is `MemoryOperandsRead`. -/
def Obligations.ValuesReadAfterResolution : Prop :=
  ∀ (a b : Operand) (r : Reg) (w : Word) (v : BitVec 5) (s : State),
    (readBoth .sp b s).va = s.sp + spMove b ∧
    (readBoth a .sp s).vb = s.sp + spMove a ∧ (readSource a .sp s).vb = s.sp + spMove a ∧
    (readBoth .pc b s).va = s.pc + 1#16 + extraCount b ∧
    (readBoth a .pc s).vb = s.pc + 1#16 + extraCount a ∧ (readSource a .pc s).vb = s.pc + 1#16 + extraCount a ∧
    (readBoth (.reg r) b s).va = s.reg r ∧
    (readBoth a (.reg r) s).vb = s.reg r ∧ (readSource a (.reg r) s).vb = s.reg r ∧
    (readBoth .o b s).va = s.o ∧ (readBoth a .o s).vb = s.o ∧ (readSource a .o s).vb = s.o ∧
    (readBoth (.litNext w) b s).va = w ∧ (readBoth a (.litNext w) s).vb = w ∧ (readSource a (.litNext w) s).vb = w ∧
    (readBoth (.lit v) b s).va.toNat = v.toNat ∧
    (readBoth a (.lit v) s).vb.toNat = v.toNat ∧ (readSource a (.lit v) s).vb.toNat = v.toNat ∧
    (readOperand .sp s).1 = s.sp ∧ (readOperand .pc s).1 = s.pc + 1#16 ∧
    (readOperand (.reg r) s).1 = s.reg r ∧ (readOperand .o s).1 = s.o ∧
    (readOperand (.litNext w) s).1 = w ∧ (readOperand (.lit v) s).1.toNat = v.toNat ∧
    (readSource .pop .pop s).dest = .mem s.sp ∧ (readSource .pop .pop s).vb = s.peek (s.sp + 1#16) ∧
    (readSource .push .pop s).dest = .mem (s.sp - 1#16) ∧ (readSource .push .pop s).vb = s.peek (s.sp - 1#16)

/-- R134, R136, R156: what a memory operand reads. Its address is that of its mode, operand b's with SP moved by operand a;
its value is the word one bus read of that address gives, b's read after a's; SET reads b alone, JSR its one operand; and
the devices afterwards are what those reads leave, no operand of another kind reading any. The order of resolution and of
the reads is the spec's reading (log entries 7, 13 and 20). -/
def Obligations.MemoryOperandsRead : Prop :=
  ∀ (a b : Operand) (s : State),
    let place := b.address { s with sp := s.sp + spMove a }
    (∀ x, a.address s = some x →
      (readBoth a b s).dest = .mem x ∧ (readSource a b s).dest = .mem x ∧
      (readBoth a b s).va = (s.busRead x).1 ∧
      (readOperand a s).1 = (s.busRead x).1 ∧ (readOperand a s).2.devices = (s.busRead x).2.devices ∧
      (place = none → (readBoth a b s).st.devices = (s.busRead x).2.devices) ∧
      ∀ y, place = some y →
        (readBoth a b s).vb = ((s.busRead x).2.busRead y).1 ∧
        (readBoth a b s).st.devices = ((s.busRead x).2.busRead y).2.devices) ∧
    (a.address s = none →
      (readOperand a s).2.devices = s.devices ∧
      (place = none → (readBoth a b s).st.devices = s.devices) ∧
      ∀ y, place = some y →
        (readBoth a b s).vb = (s.busRead y).1 ∧ (readBoth a b s).st.devices = (s.busRead y).2.devices) ∧
    (place = none → (readSource a b s).st.devices = s.devices) ∧
    ∀ y, place = some y →
      (readSource a b s).vb = (s.busRead y).1 ∧ (readSource a b s).st.devices = (s.busRead y).2.devices

/-! ## What each instruction does -/

/-- R170: SET writes `vb`, read after both operands were resolved, to a's location; O and `skip` are not changed. Words
with op 1 are SET. -/
def Obligations.SetStoresSource : Prop :=
  EncodedAs 0x1 .set ∧
  ∀ (a b : Operand) (s : State),
    let r := readSource a b s
    ∃ t, exec (.set a b) s = .next t ∧ Wrote r.dest r.vb (if r.dest = .o then r.vb else r.st.o) r.st t

/-- R176: ADD writes the sum modulo 2^16 and sets O to 1 if it exceeds 0xFFFF, else 0. With destination O the carry is
what stays (log entry 8); with a literal destination O is written all the same (log entry 10). -/
def Obligations.AddResult : Prop :=
  EncodedAs 0x2 .add ∧
  ∀ (a b : Operand) (s : State),
    let r := readBoth a b s
    ∃ t, exec (.add a b) s = .next t ∧
      Wrote r.dest (r.va + r.vb) (if 0xFFFF < r.va.toNat + r.vb.toNat then 1#16 else 0#16) r.st t

/-- R177: SUB writes the difference modulo 2^16 and sets O to 0xFFFF on a borrow, else 0 (log entries 8 and 10 as for ADD). -/
def Obligations.SubResult : Prop :=
  EncodedAs 0x3 .sub ∧
  ∀ (a b : Operand) (s : State),
    let r := readBoth a b s
    ∃ t, exec (.sub a b) s = .next t ∧
      Wrote r.dest (r.va - r.vb) (if r.va.toNat < r.vb.toNat then 0xFFFF#16 else 0#16) r.st t

/-- R178: MUL writes the low half of the exact product and sets O to its high half (log entries 8 and 10 as for ADD). -/
def Obligations.MulResult : Prop :=
  EncodedAs 0x4 .mul ∧
  ∀ (a b : Operand) (s : State),
    let r := readBoth a b s
    ∃ t low high, exec (.mul a b) s = .next t ∧ Wrote r.dest low high r.st t ∧
      high.toNat * 65536 + low.toNat = r.va.toNat * r.vb.toNat

/-- R179: DIV writes the unsigned quotient and sets O to the first sixteen binary digits of the fraction, that is
`(va mod vb) * 65536 / vb`, the low word of `va * 65536 / vb`; a zero divisor gives 0 and O = 0. The unsigned reading of
O's formula is decision D4 (log entry 9); destinations O and literal as for ADD (log entries 8 and 10). -/
def Obligations.DivResult : Prop :=
  EncodedAs 0x5 .div ∧
  ∀ (a b : Operand) (s : State),
    let r := readBoth a b s
    ∃ t q fraction, exec (.div a b) s = .next t ∧ Wrote r.dest q fraction r.st t ∧
      (r.vb = 0#16 → q = 0#16 ∧ fraction = 0#16) ∧
      (r.vb ≠ 0#16 → q.toNat = r.va.toNat / r.vb.toNat ∧
        fraction.toNat = r.va.toNat * 65536 / r.vb.toNat % 65536 ∧
        fraction.toNat = r.va.toNat % r.vb.toNat * 65536 / r.vb.toNat)

/-- R180: MOD writes the unsigned remainder, 0 for a zero divisor; O is not changed, unless it is the destination. -/
def Obligations.ModResult : Prop :=
  EncodedAs 0x6 .mod ∧
  ∀ (a b : Operand) (s : State),
    let r := readBoth a b s
    ∃ t m, exec (.mod a b) s = .next t ∧ Wrote r.dest m (if r.dest = .o then m else r.st.o) r.st t ∧
      m.toNat = (if r.vb = 0#16 then 0 else r.va.toNat % r.vb.toNat)

/-- R180, R181: DIV's quotient and MOD's remainder rebuild the dividend, the remainder is below the divisor, and the
quotient with O is the exact `va * 65536 / vb` (O by decision D4, log entry 9). -/
def Obligations.DivisionLaws : Prop :=
  ∀ va vb : Word, vb ≠ 0#16 →
    (divResult va vb).toNat * vb.toNat + (modResult va vb).toNat = va.toNat ∧
    (modResult va vb).toNat < vb.toNat ∧
    (divResult va vb).toNat * 65536 + (divOverflow va vb).toNat = va.toNat * 65536 / vb.toNat

/-- R191: SHL writes the low word of `va` shifted left by the whole of `vb` and sets O to bits 31 to 16 of the shifted
value. Counts of 32 and more are not reduced (decision D4, log entry 9); destinations O and literal as for ADD (log
entries 8 and 10). -/
def Obligations.ShlResult : Prop :=
  EncodedAs 0x7 .shl ∧
  ∀ (a b : Operand) (s : State),
    let r := readBoth a b s
    ∃ t low high, exec (.shl a b) s = .next t ∧ Wrote r.dest low high r.st t ∧
      high ++ low = r.va.setWidth 32 <<< r.vb.toNat

/-- R192: SHR writes `va` shifted right by the whole of `vb`, zeros entering at the top, and sets O to the low word of
`va * 65536` shifted right likewise. Counts of 32 and more are not reduced and no sign enters (decision D4, log entry 9);
destinations O and literal as for ADD (log entries 8 and 10). -/
def Obligations.ShrResult : Prop :=
  EncodedAs 0x8 .shr ∧
  ∀ (a b : Operand) (s : State),
    let r := readBoth a b s
    ∃ t high low, exec (.shr a b) s = .next t ∧ Wrote r.dest high low r.st t ∧
      high ++ low = (r.va ++ 0#16) >>> r.vb.toNat

/-- R191, R192, the tables by count: what the shifts give for counts 0, 1 to 15, 16, 17 to 31, and 32 or more (the last two
by decision D4, log entry 9). -/
def Obligations.ShiftsByCount : Prop :=
  ∀ (va vb : Word),
    (vb = 0#16 → shlResult va vb = va ∧ shlOverflow va vb = 0#16 ∧ shrResult va vb = va ∧ shrOverflow va vb = 0#16) ∧
    (1 ≤ vb.toNat → vb.toNat ≤ 15 →
      shlResult va vb = va <<< vb.toNat ∧ shlOverflow va vb = va >>> (16 - vb.toNat) ∧
      shrResult va vb = va >>> vb.toNat ∧ shrOverflow va vb = va <<< (16 - vb.toNat)) ∧
    (vb.toNat = 16 → shlResult va vb = 0#16 ∧ shlOverflow va vb = va ∧ shrResult va vb = 0#16 ∧ shrOverflow va vb = va) ∧
    (17 ≤ vb.toNat → vb.toNat ≤ 31 →
      shlResult va vb = 0#16 ∧ shlOverflow va vb = va <<< (vb.toNat - 16) ∧
      shrResult va vb = 0#16 ∧ shrOverflow va vb = va >>> (vb.toNat - 16)) ∧
    (32 ≤ vb.toNat →
      shlResult va vb = 0#16 ∧ shlOverflow va vb = 0#16 ∧ shrResult va vb = 0#16 ∧ shrOverflow va vb = 0#16)

/-- R201, R202, R203: AND, BOR and XOR write the word each of whose bits is the `and`, the `or` or the exclusive `or` of the
same bits of `va` and `vb`; O is not changed, unless it is the destination. When the values are read is decision D2 (log
entry 7). -/
def Obligations.BitwiseResults : Prop :=
  (EncodedAs 0x9 .and ∧ EncodedAs 0xA .bor ∧ EncodedAs 0xB .xor) ∧
  ∀ (a b : Operand) (s : State),
    let r := readBoth a b s
    (∃ t v, exec (.and a b) s = .next t ∧ Wrote r.dest v (if r.dest = .o then v else r.st.o) r.st t ∧
      ∀ k < 16, v.getLsbD k = true ↔ r.va.getLsbD k = true ∧ r.vb.getLsbD k = true) ∧
    (∃ t v, exec (.bor a b) s = .next t ∧ Wrote r.dest v (if r.dest = .o then v else r.st.o) r.st t ∧
      ∀ k < 16, v.getLsbD k = true ↔ r.va.getLsbD k = true ∨ r.vb.getLsbD k = true) ∧
    (∃ t v, exec (.xor a b) s = .next t ∧ Wrote r.dest v (if r.dest = .o then v else r.st.o) r.st t ∧
      ∀ k < 16, v.getLsbD k = true ↔ r.va.getLsbD k ≠ r.vb.getLsbD k)

/-- R211 to R214: in a normal step a conditional leaves `skip` false when its test holds of the two values and sets it when
the test fails: equal, different, unsigned greater, a bit in common. Nothing else is written: registers, O, RAM, SP and PC
are as the operands left them, and no bus write is made. When the values are read is decision D2 (log entry 7). -/
def Obligations.ConditionalsTest : Prop :=
  (EncodedAs 0xC .ife ∧ EncodedAs 0xD .ifn ∧ EncodedAs 0xE .ifg ∧ EncodedAs 0xF .ifb) ∧
  ∀ (i : Instr) (a b : Operand) (s : State), i.compares = some (a, b) → s.skip = false →
    let r := readBoth a b s
    ∃ t, exec i s = .next t ∧ (t.skip = true ↔ ¬ i.asks r.va r.vb) ∧
      t.regs = r.st.regs ∧ t.sp = r.st.sp ∧ t.pc = r.st.pc ∧ t.o = r.st.o ∧ t.ram = r.st.ram ∧
      t.devices = r.st.devices ∧ t.bus = r.st.bus ∧ t.params = r.st.params

/-- R220: JSR lowers SP by one, stores there the address of the next instruction, and sets PC to the value its operand had
before the push; registers, O, `skip` and every other RAM word are as they were, and a device at the pushed address gets
that word; its two events follow the push. That the value is the one before the push is decision D2 (R222, log entry 7),
that a push into a window sends its event decision D10 (log entry 15). Its words are those with 0x10 in the low ten bits. -/
def Obligations.JsrPushesAndJumps : Prop :=
  (∀ w e1 e2 : Word, w.toNat % 1024 = 0x10 →
    decodeWords w e1 e2 = .jsr (operandOf (BitVec.ofNat 6 (w.toNat / 1024)) e1)) ∧
  ∀ (a : Operand) (s : State),
    let r := readOperand a s
    ∃ t, exec (.jsr a) s = .next t ∧ t.pc = r.1 ∧ t.sp = r.2.sp - 1#16 ∧
      r.2.pc = s.pc + 1#16 + extraCount a ∧ t.bus = r.2.bus ++ [.write (r.2.sp - 1#16) r.2.pc] ∧
      t.outputs = (r.2.busWrite (r.2.sp - 1#16) r.2.pc).outputs ++
        [.instructionExecuted s.pc false, .memoryModified (r.2.sp - 1#16)] ∧
      (∀ b, t.ramWord b = if b = r.2.sp - 1#16 ∧ s.inWindow b = false then r.2.pc else s.ramWord b) ∧
      t.regs = s.regs ∧ t.o = s.o ∧ t.skip = s.skip ∧ t.params = s.params ∧
      t.devices = (r.2.busWrite (r.2.sp - 1#16) r.2.pc).devices ∧
      t.devices.map Installation.wiring = s.devices.map Installation.wiring

/-- R158, R221, R233: an undefined extended word has no operation: executed, it ends the step with IllegalOpcode of its
extended opcode, whatever the state, and leaves that state as it is. -/
def Obligations.UndefinedWordRaises : Prop :=
  ∀ (xop f : Field6) (s : State), exec (.unk xop f) s = .fault (.illegalOpcode xop s)

/-! ## Frames -/

/-- What an instruction that stores a result in its operand a (SET, ADD, SUB, MUL, DIV, MOD, SHL, SHR, AND, BOR, XOR) leaves
unchanged: it ends in a next state; every register, SP, PC and O but the destination keep their value, save that SP takes
the moves of POP and PUSH, PC passes the instruction, and O takes the overflow word of the six that write one; `skip`, the
parameters and the wiring stay; and every RAM word stays but the one at the destination's address (R21, R25, R29, R137). -/
def Obligations.StoringInstructionFrame : Prop :=
  ∀ (i : Instr) (a b : Operand) (s : State), i.stores = some (a, b) →
    let l := (resolveBoth a b s).1
    ∃ t, exec i s = .next t ∧
      (∀ r, l ≠ .reg r → t.reg r = s.reg r) ∧
      (l ≠ .sp → t.sp = s.sp + spMove a + spMove b) ∧
      (l ≠ .pc → t.pc = s.pc + 1#16 + extraCount a + extraCount b) ∧
      (l ≠ .o → i.writesOverflow = false → t.o = s.o) ∧
      t.skip = s.skip ∧ t.params = s.params ∧ t.phase = s.phase ∧
      t.devices.map Installation.wiring = s.devices.map Installation.wiring ∧
      (∀ addr, l ≠ .mem addr ∨ s.inWindow addr = true → t.ramWord addr = s.ramWord addr)

/-- R101, R138, R171: with a literal destination SET, MOD, AND, BOR and XOR drop the result: they end in a next state that
differs from the start only in PC, in the SP moves of operand b, in what reading operand b did to a device and added to the
bus trace, and in the one event; no bus write is made. -/
def Obligations.LiteralDestinationDropsResult : Prop :=
  ∀ (i : Instr) (a b : Operand) (s : State), i.stores = some (a, b) → i.writesOverflow = false → a.isLiteral = true →
    let st := if i = .set a b then (readSource a b s).st else (readBoth a b s).st
    ∃ t, exec i s = .next t ∧
      t.regs = s.regs ∧ t.o = s.o ∧ t.skip = s.skip ∧ t.ram = s.ram ∧ t.params = s.params ∧ t.phase = s.phase ∧
      t.sp = s.sp + spMove b ∧ t.pc = s.pc + 1#16 + extraCount a + extraCount b ∧
      t.devices = st.devices ∧ t.bus = st.bus ∧
      t.bus.filterMap BusAccess.written = s.bus.filterMap BusAccess.written ∧
      t.outputs = s.outputs ++ [.instructionExecuted s.pc false]

/-- R62, R72, R162, R164 with decision D10 (log entry 15): what an instruction that stores its result sends out. With a memory
destination: the effects that the one bus write triggers at a device, then `instructionExecuted`, then `memoryModified` for
that address; with any other destination `instructionExecuted` alone. The write is the last access, of the word that
`Wrote` speaks of. -/
def Obligations.StoreEffectsAndEvents : Prop :=
  ∀ (i : Instr) (a b : Operand) (s : State), i.stores = some (a, b) →
    let l := (resolveBoth a b s).1
    let st := if i = .set a b then (readSource a b s).st else (readBoth a b s).st
    ∃ t, exec i s = .next t ∧
      (∀ addr, l = .mem addr → ∃ v, t.bus = st.bus ++ [.write addr v] ∧
        t.outputs = (st.busWrite addr v).outputs ++ [.instructionExecuted s.pc false, .memoryModified addr]) ∧
      ((∀ addr, l ≠ .mem addr) → t.bus = st.bus ∧ t.outputs = s.outputs ++ [.instructionExecuted s.pc false])

/-- R223, R224: a call followed by `SET PC, POP` comes back: PC is the address after the JSR, SP is where the operand of the
JSR left it, and the registers and O are as before, when the return address went to the RAM. -/
def Obligations.CallThenReturn : Prop :=
  ∀ (a : Operand) (s t : State), exec (.jsr a) s = .next t → s.inWindow t.sp = false →
    ∃ u, exec (.set .pc .pop) t = .next u ∧ u.pc = s.pc + 1#16 + extraCount a ∧ u.sp = s.sp + spMove a ∧
      u.regs = s.regs ∧ u.o = s.o ∧ u.skip = s.skip

/-! ## The step -/

/-- A normal step runs the decoded instruction (R154): when the words fetched at PC decode to `i`, the step is `exec i` at
the state after the fetch, which differs from the start only in device state and in the host's and the model's own fields:
the phase is `running`, the outputs are empty, and the bus trace is the fetch. With no window over the three words from PC
on, the words are those of the RAM and no device changes. -/
def Obligations.StepRunsDecodedInstruction : Prop :=
  ∀ (s : State) (i : Instr) (rest : List Word), s.skip = false → i.wellFormed = true →
    (decode [s.fetched.first, s.fetched.extra1, s.fetched.extra2] = .ok (i, rest) →
      step s = exec i s.fetched.st ∧
      s.fetched.st = { s with
        devices := s.fetched.st.devices, bus := s.fetched.st.bus, outputs := [], phase := .running } ∧
      s.fetched.st.bus.map BusAccess.request = fetchRequests s.pc (wordsToRead s.fetched.first)) ∧
    (s.inWindow s.pc = false → s.inWindow (s.pc + 1#16) = false → s.inWindow (s.pc + 2#16) = false →
      decode [s.ramWord s.pc, s.ramWord (s.pc + 1#16), s.ramWord (s.pc + 2#16)] = .ok (i, rest) →
      s.fetched.first = s.ramWord s.pc ∧ s.fetched.st.devices = s.devices ∧ step s = exec i s.fetched.st)

/-- R141, R151, R152: a skip step reads the first word, moves PC past the whole instruction and clears `skip`; no register,
SP, O or RAM word changes, the extra words are not read, nothing is written, and it always ends in a next state, an
undefined word included (decision D6, log entry 11). -/
def Obligations.SkipStepPassesOver : Prop :=
  ∀ s : State, s.skip = true →
    ∃ t, step s = .next t ∧ t.pc = s.pc + word (lengthOf (s.peek s.pc)) ∧ t.skip = false ∧
      t.regs = s.regs ∧ t.sp = s.sp ∧ t.o = s.o ∧ t.ram = s.ram ∧ t.params = s.params ∧
      t.devices = (s.busRead s.pc).2.devices ∧ t.bus = [.read s.pc (s.peek s.pc)] ∧
      ∀ a, Output.memoryModified a ∉ t.outputs

/-- R156, R158, R166, R230, R232, R235: a step ends in a next state or in IllegalOpcode, never otherwise; in IllegalOpcode
exactly when no skip is pending and the word at PC has `w[3:0] = 0` and `w[9:4]` other than 1. It then carries `w[9:4]`, and
leaves all as it was at the start of the step but for the read of that word: the one bus access, with what it did to a
device. That R232 leaves that room is the model's reading (log entry 24); phase, outputs and trace are its own fields. -/
def Obligations.StepOutcome : Prop :=
  ∀ s : State,
    let w := s.peek s.pc
    let left : State :=
      { s with devices := (s.busRead s.pc).2.devices, bus := [.read s.pc w], outputs := [], phase := .running }
    ((∃ t, step s = .next t) ↔ s.skip = true ∨ w.toNat % 16 ≠ 0 ∨ w.toNat / 16 % 64 = 1) ∧
    (∀ e, step s = .fault e ↔ s.skip = false ∧ w.toNat % 16 = 0 ∧ w.toNat / 16 % 64 ≠ 1 ∧
      e = .illegalOpcode (BitVec.ofNat 6 (w.toNat / 16)) left) ∧
    (∀ r, step s ≠ .refused r)

/-- R234 with decision D7 (log entry 12): there is no fault latch. The state a failing step leaves (log entry 24), when no
window holds PC (R278), fails the next step just the same, and for ever: that step leaves it exactly as it is. -/
def Obligations.RaisesAgain : Prop :=
  ∀ (s t : State) (xop : Field6), step s = .fault (.illegalOpcode xop t) → s.inWindow s.pc = false →
    step t = .fault (.illegalOpcode xop t)

/-- R30: after a step `skip` is set exactly when the step was a normal one that executed a conditional whose test failed; so
a skip step clears it, and nothing else sets it. -/
def Obligations.SkipSetOnlyByFailedTest : Prop :=
  ∀ s t : State, step s = .next t →
    (t.skip = true ↔ s.skip = false ∧ ∃ a b, s.fetched.instr.compares = some (a, b) ∧
      ¬ s.fetched.instr.asks (readBoth a b s.fetched.st).va (readBoth a b s.fetched.st).vb)

/-- R155, R224: a normal step leaves PC at the address after the last word of its instruction, unless the instruction stores
to PC or is JSR. -/
def Obligations.PcFollowsInstruction : Prop :=
  ∀ s t : State, step s = .next t → s.skip = false →
    (∀ a b, s.fetched.instr.stores = some (a, b) → (resolveBoth a b s.fetched.st).1 ≠ .pc) →
    (∀ a, s.fetched.instr ≠ .jsr a) →
    t.pc = s.pc + word (lengthOf s.fetched.first)

/-- R156 with decision D8 (log entry 13): the bus accesses of a normal step, in order: the first word, a's extra word, b's
extra word, the word at a's location (not for SET), the word at b's location, and the write of the result; for JSR its
operand and the push. -/
def Obligations.BusAccessesInOrder : Prop :=
  ∀ (s : State), s.skip = false →
    let i := s.fetched.instr
    let fetch := fetchRequests s.pc (wordsToRead s.fetched.first)
    (∀ a b, i.stores = some (a, b) →
      let r := resolveBoth a b s.fetched.st
      ∃ t, step s = .next t ∧ t.bus.map BusAccess.request =
        fetch ++ (if i = .set a b then [] else r.1.getRequests) ++ r.2.1.getRequests ++ r.1.putRequests) ∧
    (∀ a b, i.compares = some (a, b) →
      let r := resolveBoth a b s.fetched.st
      ∃ t, step s = .next t ∧ t.bus.map BusAccess.request = fetch ++ r.1.getRequests ++ r.2.1.getRequests) ∧
    (∀ a, i = .jsr a →
      ∃ t, step s = .next t ∧ t.bus.map BusAccess.request =
        fetch ++ (resolve a s.fetched.st).1.getRequests ++ [.put t.sp])

/-- R156, last paragraph (log entry 13): a step makes at least one and at most five reads, and at most one write, which is
its last access. -/
def Obligations.FiveReadsOneWrite : Prop :=
  ∀ s t : State, step s = .next t →
    ∃ reads writes, t.bus.map BusAccess.request = .get s.pc :: (reads ++ writes) ∧
      (∀ q ∈ reads, ∃ a, q = .get a) ∧ reads.length ≤ 4 ∧ (writes = [] ∨ ∃ a, writes = [.put a])

/-- R161, R162, R164 with decision D10 (log entry 15): a normal step sends, after any effect of a device, one
`instructionExecuted` with the PC at its start and then one `memoryModified` for each bus address it wrote. -/
def Obligations.EventsOfNormalStep : Prop :=
  ∀ s t : State, step s = .next t → s.skip = false →
    ∃ effects, (∀ e ∈ effects, (∃ base offset cell, e = Output.repaint base offset cell) ∨
        ∃ name base code, e = Output.deviceEffect name base code) ∧
      t.outputs = effects ++ .instructionExecuted s.pc false ::
        (t.bus.filterMap BusAccess.written).map .memoryModified

/-- The words of a table row put at PC are the instruction the next step runs (R75, R266; `withFetchWord` is the model's own,
log entry 23). -/
def Obligations.FetchWordRuns : Prop :=
  ∀ (s : State) (nbits w : Nat) (i : Instr), decodeTableWord nbits w = some i →
    ∃ u, step (s.withFetchWord nbits w) = exec i u ∧ u.regs = s.regs ∧ u.pc = s.pc ∧ u.sp = s.sp ∧ u.o = s.o ∧
      u.skip = false ∧ (i.isDefined = true → ∃ t, step (s.withFetchWord nbits w) = .next t)

/-! ## The whole machine -/

/-- The invariant of the model is kept by every step, one that raises too: the RAM and the device windows in canonical form,
the windows well formed and disjoint, every key buffer within its depth (R50, R57, R249). -/
def Obligations.StepKeepsWellFormed : Prop :=
  ∀ s t : State, s.wf = true →
    (step s = .next t → t.wf = true) ∧ ∀ xop, step s = .fault (.illegalOpcode xop t) → t.wf = true

/-- Every state the host, the environment and the machine can reach is well formed. -/
def Obligations.ReachableIsWellFormed : Prop :=
  ∀ s : State, Reachable s → s.wf = true

/-- R38, R42, R78, R265: a step, one that raises too, never changes the wiring, and it changes an installed device only
through an access to its window. -/
def Obligations.DevicesChangeOnlyByAccess : Prop :=
  ∀ s t : State, (step s = .next t ∨ ∃ xop, step s = .fault (.illegalOpcode xop t)) →
    t.devices.map Installation.wiring = s.devices.map Installation.wiring ∧
    ∀ (k : Nat) (m : Installation), s.devices[k]? = some m →
      (∀ q ∈ t.bus, m.covers q.addr.toNat = false) → t.devices[k]? = some m

/-- R61: nothing the engine does can show or change a RAM word under a window. Two states that differ only in such words take
the same step: the same outcome, states that again differ only there, and those words unchanged. That a device without a
description answers and acts alike in both runs, their histories being equal, is the model's choice (log entry 5). -/
def Obligations.ShadowedRamIsInvisible : Prop :=
  ∀ (s : State) (ram : Memory), (∀ a, s.inWindow a = false → { s with ram := ram }.ramWord a = s.ramWord a) →
    (∀ xop t, step s = .fault (.illegalOpcode xop t) ↔
      t.ram = s.ram ∧ step { s with ram := ram } = .fault (.illegalOpcode xop { t with ram := ram })) ∧
    (∀ t, step s = .next t →
      (∀ a, s.inWindow a = true → t.ramWord a = s.ramWord a) ∧
      ∃ t', step { s with ram := ram } = .next t' ∧ t' = { t with ram := t'.ram } ∧
        ∀ a, s.inWindow a = false → t'.ramWord a = t.ramWord a)

/-- R78, R251: an act of the peripheral environment changes device state alone, and the wiring not at all. -/
def Obligations.EnvironmentChangesDevicesOnly : Prop :=
  ∀ (s t : State) (n code : Nat) (key : Word), (s.pressKey n key = .next t ∨ s.environmentAct n code = .next t) →
    t = { s with devices := t.devices } ∧
    t.devices.map Installation.wiring = s.devices.map Installation.wiring ∧
    ∀ k, k ≠ n → t.devices[k]? = s.devices[k]?
end

