-- ==== Sys2Proof/Laws/Memory.lean ====
section
/-! SUPPORT. The word store: a read after a write, and the canonical form, which every operation keeps. -/

namespace Sys2Proof.Machine

theorem Memory.lookup_remove (m : Memory) (n q : Nat) :
    Memory.lookup (Memory.remove m n) q = if q = n then 0#16 else Memory.lookup m q := by
  induction m with
  | nil => simp [Memory.remove, Memory.lookup]
  | cons c m ih =>
    obtain ⟨k, v⟩ := c
    simp only [Memory.remove, Memory.lookup]
    split <;> simp only [Memory.lookup, ih] <;> grind

theorem Memory.lookup_enter (m : Memory) (n q : Nat) (v : Word) :
    Memory.lookup (Memory.enter m n v) q = if q = n then v else Memory.lookup m q := by
  induction m with
  | nil => simp [Memory.enter, Memory.lookup, eq_comm]
  | cons c m ih =>
    obtain ⟨k, u⟩ := c
    simp only [Memory.enter]
    split
    · simp [Memory.lookup, eq_comm]
    · split
      · simp only [Memory.lookup]; grind
      · simp only [Memory.lookup, ih]; grind

/-- A read after a write: the written index reads as the written word, every other index as before (R51, R52). -/
theorem Memory.get_put (capacity : Nat) (m : Memory) (a b : Nat) (v : Word) :
    Memory.get capacity (Memory.put capacity m a v) b =
      if b % capacity = a % capacity then v else Memory.get capacity m b := by
  unfold Memory.get Memory.put
  split
  · simp_all [Memory.lookup_remove]
  · simp [Memory.lookup_enter]

/-! ## The canonical form -/

theorem Memory.rising_mono {low low' : Nat} {m : Memory} (h : low' ≤ low) (hm : Memory.rising low m = true) :
    Memory.rising low' m = true := by
  cases m with
  | nil => rfl
  | cons c m =>
    obtain ⟨k, v⟩ := c
    simp only [Memory.rising, Bool.and_eq_true, decide_eq_true_eq] at hm ⊢
    exact ⟨by omega, hm.2⟩

theorem Memory.rising_remove {low n : Nat} {m : Memory} (hm : Memory.rising low m = true) :
    Memory.rising low (Memory.remove m n) = true := by
  induction m generalizing low with
  | nil => rfl
  | cons c m ih =>
    obtain ⟨k, v⟩ := c
    simp only [Memory.rising, Bool.and_eq_true, decide_eq_true_eq] at hm
    simp only [Memory.remove]
    split
    · exact ih (Memory.rising_mono (by omega) hm.2)
    · simpa [Memory.rising, hm.1] using ih hm.2

theorem Memory.rising_enter {low n : Nat} {m : Memory} {v : Word} (hn : low ≤ n) (hm : Memory.rising low m = true) :
    Memory.rising low (Memory.enter m n v) = true := by
  induction m generalizing low with
  | nil => simp [Memory.enter, Memory.rising, hn]
  | cons c m ih =>
    obtain ⟨k, u⟩ := c
    simp only [Memory.rising, Bool.and_eq_true, decide_eq_true_eq] at hm
    simp only [Memory.enter]
    split
    · simp only [Memory.rising, Bool.and_eq_true, decide_eq_true_eq]
      exact ⟨hn, by omega, hm.2⟩
    · split
      · subst n; simpa [Memory.rising, hn] using hm.2
      · simpa [Memory.rising, hm.1] using ih (by omega) hm.2

theorem Memory.mem_remove {m : Memory} {n : Nat} {c : Cell} (h : c ∈ Memory.remove m n) : c ∈ m := by
  induction m with
  | nil => simp [Memory.remove] at h
  | cons d m ih =>
    obtain ⟨k, v⟩ := d
    simp only [Memory.remove] at h
    split at h
    · exact List.mem_cons_of_mem _ (ih h)
    · rcases List.mem_cons.mp h with rfl | h
      · exact List.mem_cons_self
      · exact List.mem_cons_of_mem _ (ih h)

theorem Memory.mem_enter {m : Memory} {n : Nat} {v : Word} {c : Cell} (h : c ∈ Memory.enter m n v) :
    c = (n, v) ∨ c ∈ m := by
  induction m with
  | nil => simpa [Memory.enter] using h
  | cons d m ih =>
    obtain ⟨k, u⟩ := d
    simp only [Memory.enter] at h
    split at h
    · simpa using h
    · split at h <;> simp at h ⊢ <;> tauto

theorem Memory.wf_nil (capacity : Nat) : Memory.wf capacity [] = true := rfl

/-- A write keeps the canonical form. -/
theorem Memory.wf_put {capacity : Nat} (hc : 0 < capacity) {m : Memory} (a : Nat) (v : Word)
    (hm : Memory.wf capacity m = true) : Memory.wf capacity (Memory.put capacity m a v) = true := by
  simp only [Memory.wf, Bool.and_eq_true, List.all_eq_true, decide_eq_true_eq, bne_iff_ne] at hm ⊢
  unfold Memory.put
  split
  · exact ⟨Memory.rising_remove hm.1, fun c h => hm.2 c (Memory.mem_remove h)⟩
  · rename_i hv
    refine ⟨Memory.rising_enter (Nat.zero_le _) hm.1, fun c h => ?_⟩
    rcases Memory.mem_enter h with rfl | h
    · exact ⟨Nat.mod_lt _ hc, hv⟩
    · exact hm.2 c h

theorem Memory.lookup_low {low n : Nat} {m : Memory} (hm : Memory.rising low m = true) (hn : n < low) :
    Memory.lookup m n = 0#16 := by
  induction m generalizing low with
  | nil => rfl
  | cons c m ih =>
    obtain ⟨k, v⟩ := c
    simp only [Memory.rising, Bool.and_eq_true, decide_eq_true_eq] at hm
    simp only [Memory.lookup]
    rw [if_neg (by omega)]
    exact ih hm.2 (by omega)

/-- Two contents in canonical form that read alike everywhere are the same list. -/
theorem Memory.ext_of_rising {low : Nat} {m m' : Memory} (hm : Memory.rising low m = true)
    (hm' : Memory.rising low m' = true) (h0 : ∀ c ∈ m, c.2 ≠ 0#16) (h0' : ∀ c ∈ m', c.2 ≠ 0#16)
    (h : ∀ n, Memory.lookup m n = Memory.lookup m' n) : m = m' := by
  induction m generalizing low m' with
  | nil =>
    cases m' with
    | nil => rfl
    | cons c m' => exact absurd (by simpa [Memory.lookup] using (h c.1).symm) (h0' c (by simp))
  | cons c m ih =>
    obtain ⟨k, v⟩ := c
    cases m' with
    | nil => exact absurd (by simpa [Memory.lookup] using h k) (h0 (k, v) (by simp))
    | cons d m' =>
      obtain ⟨k', v'⟩ := d
      simp only [Memory.rising, Bool.and_eq_true, decide_eq_true_eq] at hm hm'
      have hv : v ≠ 0#16 := h0 (k, v) (by simp)
      have hv' : v' ≠ 0#16 := h0' (k', v') (by simp)
      have e1 := h k
      have e2 := h k'
      simp only [Memory.lookup, if_true] at e1 e2
      rcases Nat.lt_trichotomy k k' with hlt | rfl | hlt
      · rw [if_neg (by omega), Memory.lookup_low hm'.2 (by omega)] at e1
        exact absurd e1 hv
      · rw [if_pos rfl] at e1
        subst e1
        congr 1
        refine ih hm.2 hm'.2 (fun c hc => h0 c (by simp [hc])) (fun c hc => h0' c (by simp [hc])) fun n => ?_
        by_cases hn : k = n
        · subst hn
          rw [Memory.lookup_low hm.2 (by omega), Memory.lookup_low hm'.2 (by omega)]
        · simpa [Memory.lookup, hn] using h n
      · rw [if_neg (by omega), Memory.lookup_low hm.2 (by omega)] at e2
        exact absurd e2.symm hv'

end Sys2Proof.Machine
end

