-- ==== Sys2Proof/Laws/Router.lean ====
section
/-! SUPPORT. What one access to a device and one routed access can do. -/

namespace Sys2Proof.Machine

/-! ## One device -/

theorem Device.get_kind (name : String) (base : Nat) (d : Device) (n : Nat) : (d.get name base n).2.kind = d.kind := by
  cases d with
  | keyboard depth fifo => cases fifo <;> rfl
  | storing | display | undescribed => rfl

theorem Device.put_kind (name : String) (base : Nat) (d : Device) (n : Nat) (v : Word) :
    (d.put name base n v).1.kind = d.kind := by
  cases d <;> rfl

/-- A device's kind gives the size of its window. -/
theorem Device.size_of_kind {d e : Device} (h : d.kind = e.kind) : d.size = e.size := by
  cases d <;> cases e <;> simp_all [Device.kind, Device.size]

theorem Device.get_wf {name : String} {base n : Nat} {d : Device} (h : d.wf = true) :
    (d.get name base n).2.wf = true := by
  cases d with
  | keyboard depth fifo =>
    cases fifo with
    | nil => exact h
    | cons k rest =>
      simp only [Device.wf, decide_eq_true_eq, List.length_cons] at h
      simp only [Device.get, Device.wf, decide_eq_true_eq]
      omega
  | storing | display | undescribed => exact h

theorem Device.put_wf {name : String} {base n : Nat} {d : Device} {v : Word} (hs : 1 ≤ d.size) (h : d.wf = true) :
    (d.put name base n v).1.wf = true := by
  cases d with
  | storing size cells => exact Memory.wf_put hs n v h
  | display size cells => exact Memory.wf_put hs n (Config.displayStore v) h
  | keyboard | undescribed => exact h

/-- What a write triggers outside is a repaint or an effect of a device without a description (R62). -/
theorem Device.put_effects {name : String} {base n : Nat} {d : Device} {v : Word} {e : Output}
    (h : e ∈ (d.put name base n v).2) :
    (∃ b k cell, e = .repaint b k cell) ∨ ∃ m b code, e = .deviceEffect m b code := by
  cases d with
  | storing | keyboard => simp [Device.put] at h
  | display => exact .inl ⟨_, _, _, by simpa [Device.put] using h⟩
  | undescribed =>
    obtain ⟨code, -, rfl⟩ := List.mem_map.mp h
    exact .inr ⟨_, _, _, rfl⟩

/-! ## Wiring -/

theorem Installation.covers_of_wiring {m n : Installation} (h : m.wiring = n.wiring) : m.covers = n.covers := by
  simp only [Installation.wiring, Prod.mk.injEq] at h
  funext a
  simp only [Installation.covers, h.1, Device.size_of_kind h.2.2]

theorem Installation.overlaps_of_wiring {m n m' n' : Installation} (h : m.wiring = m'.wiring)
    (h' : n.wiring = n'.wiring) : m.overlaps n = m'.overlaps n' := by
  simp only [Installation.wiring, Prod.mk.injEq] at h h'
  simp only [Installation.overlaps, h.1, h'.1, Device.size_of_kind h.2.2, Device.size_of_kind h'.2.2]

/-- A read leaves the wiring of every installation as it was. -/
theorem routeRead_wiring (ram : Memory) (ds : List Installation) (a : Nat) :
    (routeRead ram ds a).2.map Installation.wiring = ds.map Installation.wiring := by
  induction ds with
  | nil => rfl
  | cons m ms ih =>
    simp only [routeRead]
    split <;> simp [Installation.wiring, Device.get_kind, ih]

/-- A write leaves the wiring of every installation as it was. -/
theorem routeWrite_wiring (ram : Memory) (ds : List Installation) (a : Nat) (v : Word) :
    (routeWrite ram ds a v).devices.map Installation.wiring = ds.map Installation.wiring := by
  induction ds with
  | nil => rfl
  | cons m ms ih =>
    simp only [routeWrite]
    split <;> simp [Installation.wiring, Device.put_kind, ih]

/-- Lists of one wiring have their windows at the same addresses. -/
theorem any_covers_of_wiring {ds es : List Installation}
    (h : ds.map Installation.wiring = es.map Installation.wiring) (a : Nat) :
    ds.any (fun m => m.covers a) = es.any (fun m => m.covers a) := by
  induction ds generalizing es with
  | nil => cases es <;> simp_all
  | cons m ms ih =>
    cases es with
    | nil => simp at h
    | cons n ns =>
      simp only [List.map_cons, List.cons.injEq] at h
      simp only [List.any_cons, ih h.2, Installation.covers_of_wiring h.1]

/-! ## Where an access goes -/

/-- A read outside every window is the RAM's word and changes no device (R58). -/
theorem routeRead_outside {ram : Memory} {ds : List Installation} {a : Nat}
    (h : ds.any (fun m => m.covers a) = false) : routeRead ram ds a = (Memory.get Config.ramCapacity ram a, ds) := by
  induction ds with
  | nil => rfl
  | cons m ms ih =>
    simp only [List.any_cons, Bool.or_eq_false_iff] at h
    simp [routeRead, h.1, ih h.2]

/-- A read inside a window does not depend on the RAM (R58). -/
theorem routeRead_inside {ram ram' : Memory} {ds : List Installation} {a : Nat}
    (h : ds.any (fun m => m.covers a) = true) : routeRead ram ds a = routeRead ram' ds a := by
  induction ds with
  | nil => simp at h
  | cons m ms ih =>
    simp only [routeRead]
    split
    · rfl
    · rename_i hm
      simp only [List.any_cons, hm, Bool.false_or] at h
      rw [ih h]

/-- A read goes to the first window that holds the address, with the offset from its base (R58). -/
theorem routeRead_first {ram : Memory} {pre post : List Installation} {m : Installation} {a : Nat}
    (hpre : pre.any (fun n => n.covers a) = false) (hm : m.covers a = true) :
    routeRead ram (pre ++ m :: post) a =
      ((m.device.get m.name m.base (a - m.base)).1,
        pre ++ { m with device := (m.device.get m.name m.base (a - m.base)).2 } :: post) := by
  induction pre with
  | nil => simp [routeRead, hm]
  | cons n ns ih =>
    simp only [List.any_cons, Bool.or_eq_false_iff] at hpre
    simp [routeRead, hpre.1, ih hpre.2]

/-- A write outside every window goes to the RAM (R59). -/
theorem routeWrite_outside {ram : Memory} {ds : List Installation} {a : Nat} {v : Word}
    (h : ds.any (fun m => m.covers a) = false) :
    routeWrite ram ds a v = ⟨Memory.put Config.ramCapacity ram a v, ds, []⟩ := by
  induction ds with
  | nil => rfl
  | cons m ms ih =>
    simp only [List.any_cons, Bool.or_eq_false_iff] at h
    simp [routeWrite, h.1, ih h.2]

/-- A write inside a window leaves the RAM, and does not depend on it (R59, R61). -/
theorem routeWrite_inside {ram : Memory} {ds : List Installation} {a : Nat} {v : Word}
    (h : ds.any (fun m => m.covers a) = true) (ram' : Memory) :
    routeWrite ram ds a v = { routeWrite ram' ds a v with ram := ram } := by
  induction ds with
  | nil => simp at h
  | cons m ms ih =>
    simp only [routeWrite]
    split
    · rfl
    · rename_i hm
      simp only [List.any_cons, hm, Bool.false_or] at h
      rw [ih h]

/-- A write goes to the first window that holds the address (R59). -/
theorem routeWrite_first {ram : Memory} {pre post : List Installation} {m : Installation} {a : Nat} {v : Word}
    (hpre : pre.any (fun n => n.covers a) = false) (hm : m.covers a = true) :
    routeWrite ram (pre ++ m :: post) a v =
      ⟨ram, pre ++ { m with device := (m.device.put m.name m.base (a - m.base) v).1 } :: post,
        (m.device.put m.name m.base (a - m.base) v).2⟩ := by
  induction pre with
  | nil => simp [routeWrite, hm]
  | cons n ns ih =>
    simp only [List.any_cons, Bool.or_eq_false_iff] at hpre
    simp [routeWrite, hpre.1, ih hpre.2]

/-- What a routed write triggers outside is a repaint or an effect of a device without a description (R62). -/
theorem routeWrite_effects {ram : Memory} {ds : List Installation} {a : Nat} {v : Word} {e : Output}
    (h : e ∈ (routeWrite ram ds a v).effects) :
    (∃ b k cell, e = .repaint b k cell) ∨ ∃ m b code, e = .deviceEffect m b code := by
  induction ds with
  | nil => simp [routeWrite] at h
  | cons m ms ih =>
    simp only [routeWrite] at h
    split at h
    · exact Device.put_effects h
    · exact ih h

/-! ## Well-formedness -/

theorem all_overlaps_of_wiring {m m' : Installation} (hm : m.wiring = m'.wiring) {ds es : List Installation}
    (h : ds.map Installation.wiring = es.map Installation.wiring) :
    ds.all (fun n => !m.overlaps n) = es.all (fun n => !m'.overlaps n) := by
  induction ds generalizing es with
  | nil => cases es <;> simp_all
  | cons n ns ih =>
    cases es with
    | nil => simp at h
    | cons k ks =>
      simp only [List.map_cons, List.cons.injEq] at h
      simp only [List.all_cons, ih h.2, Installation.overlaps_of_wiring hm h.1]

/-- The windows stay well formed through a read. -/
theorem routeRead_wf {ram : Memory} {ds : List Installation} {a : Nat} (h : windowsWf ds = true) :
    windowsWf (routeRead ram ds a).2 = true := by
  induction ds with
  | nil => exact h
  | cons m ms ih =>
    simp only [windowsWf, Bool.and_eq_true, Installation.wf, decide_eq_true_eq] at h
    simp only [routeRead]
    split
    · have hk := Device.get_kind m.name m.base m.device (a - m.base)
      have hw : Installation.wiring { m with device := (m.device.get m.name m.base (a - m.base)).2 } = m.wiring := by
        simp [Installation.wiring, hk]
      simp only [windowsWf, Bool.and_eq_true, Installation.wf, decide_eq_true_eq, Device.size_of_kind hk,
        all_overlaps_of_wiring hw rfl]
      exact ⟨⟨⟨h.1.1.1, Device.get_wf h.1.1.2⟩, h.1.2⟩, h.2⟩
    · simp only [windowsWf, Bool.and_eq_true, Installation.wf, decide_eq_true_eq,
        all_overlaps_of_wiring (rfl : m.wiring = m.wiring) (routeRead_wiring ram ms a)]
      exact ⟨h.1, ih h.2⟩

/-- The windows stay well formed through a write. -/
theorem routeWrite_wf {ram : Memory} {ds : List Installation} {a : Nat} {v : Word} (h : windowsWf ds = true) :
    windowsWf (routeWrite ram ds a v).devices = true := by
  induction ds with
  | nil => exact h
  | cons m ms ih =>
    simp only [windowsWf, Bool.and_eq_true, Installation.wf, decide_eq_true_eq] at h
    simp only [routeWrite]
    split
    · have hk := Device.put_kind m.name m.base m.device (a - m.base) v
      have hw : Installation.wiring { m with device := (m.device.put m.name m.base (a - m.base) v).1 } = m.wiring := by
        simp [Installation.wiring, hk]
      simp only [windowsWf, Bool.and_eq_true, Installation.wf, decide_eq_true_eq, Device.size_of_kind hk,
        all_overlaps_of_wiring hw rfl]
      exact ⟨⟨⟨h.1.1.1, Device.put_wf h.1.1.1.1 h.1.1.2⟩, h.1.2⟩, h.2⟩
    · simp only [windowsWf, Bool.and_eq_true, Installation.wf, decide_eq_true_eq,
        all_overlaps_of_wiring (rfl : m.wiring = m.wiring) (routeWrite_wiring ram ms a v)]
      exact ⟨h.1, ih h.2⟩

theorem routeWrite_ram_wf {ram : Memory} {ds : List Installation} {a : Nat} {v : Word}
    (h : Memory.wf Config.ramCapacity ram = true) : Memory.wf Config.ramCapacity (routeWrite ram ds a v).ram = true := by
  induction ds with
  | nil => exact Memory.wf_put (by decide) a v h
  | cons m ms ih =>
    simp only [routeWrite]
    split
    · exact h
    · exact ih

/-! ## The bus -/

theorem State.inWindow_of_wiring {s t : State}
    (h : t.devices.map Installation.wiring = s.devices.map Installation.wiring) (a : Word) :
    t.inWindow a = s.inWindow a :=
  any_covers_of_wiring h a.toNat

@[simp] theorem State.busRead_wiring (s : State) (a : Word) :
    (s.busRead a).2.devices.map Installation.wiring = s.devices.map Installation.wiring :=
  routeRead_wiring s.ram s.devices a.toNat

@[simp] theorem State.busWrite_wiring (s : State) (a v : Word) :
    (s.busWrite a v).devices.map Installation.wiring = s.devices.map Installation.wiring :=
  routeWrite_wiring s.ram s.devices a.toNat v

/-- A bus write leaves every RAM word but the one at its address, and that one if a window holds the address. -/
theorem State.ramWord_busWrite (s : State) (a v b : Word) :
    (s.busWrite a v).ramWord b = if b = a ∧ s.inWindow a = false then v else s.ramWord b := by
  have hlt : ∀ x : Word, x.toNat % Config.ramCapacity = x.toNat := fun x => Nat.mod_eq_of_lt x.isLt
  cases h : s.inWindow a with
  | true =>
    show Memory.get _ (routeWrite s.ram s.devices a.toNat v).ram b.toNat = _
    rw [routeWrite_inside h []]
    simp [State.ramWord]
  | false =>
    show Memory.get _ (routeWrite s.ram s.devices a.toNat v).ram b.toNat = _
    rw [routeWrite_outside h, Memory.get_put, hlt, hlt]
    simp [BitVec.toNat_inj, State.ramWord]

theorem State.busRead_wf {s : State} {a : Word} (h : s.wf = true) : (s.busRead a).2.wf = true := by
  simp only [State.wf, Bool.and_eq_true] at h ⊢
  exact ⟨h.1, routeRead_wf h.2⟩

theorem State.busWrite_wf {s : State} {a v : Word} (h : s.wf = true) : (s.busWrite a v).wf = true := by
  simp only [State.wf, Bool.and_eq_true] at h ⊢
  exact ⟨routeWrite_ram_wf h.1, routeWrite_wf h.2⟩

end Sys2Proof.Machine
end

