-- ==== Sys2Proof/Laws/State.lean ====
section
/-! SUPPORT. What each update of the state leaves in each field: small lemmas, so that no proof unfolds a record. -/

namespace Sys2Proof.Machine

/-! ## `setReg` -/

@[simp] theorem State.setReg_regs (s : State) (r : Reg) (v : Word) : (s.setReg r v).regs = s.regs.set r v := rfl
@[simp] theorem State.setReg_pc (s : State) (r : Reg) (v : Word) : (s.setReg r v).pc = s.pc := rfl
@[simp] theorem State.setReg_sp (s : State) (r : Reg) (v : Word) : (s.setReg r v).sp = s.sp := rfl
@[simp] theorem State.setReg_o (s : State) (r : Reg) (v : Word) : (s.setReg r v).o = s.o := rfl
@[simp] theorem State.setReg_skip (s : State) (r : Reg) (v : Word) : (s.setReg r v).skip = s.skip := rfl
@[simp] theorem State.setReg_ram (s : State) (r : Reg) (v : Word) : (s.setReg r v).ram = s.ram := rfl
@[simp] theorem State.setReg_devices (s : State) (r : Reg) (v : Word) : (s.setReg r v).devices = s.devices := rfl
@[simp] theorem State.setReg_params (s : State) (r : Reg) (v : Word) : (s.setReg r v).params = s.params := rfl
@[simp] theorem State.setReg_phase (s : State) (r : Reg) (v : Word) : (s.setReg r v).phase = s.phase := rfl
@[simp] theorem State.setReg_outputs (s : State) (r : Reg) (v : Word) : (s.setReg r v).outputs = s.outputs := rfl
@[simp] theorem State.setReg_bus (s : State) (r : Reg) (v : Word) : (s.setReg r v).bus = s.bus := rfl

/-! ## `setPc` -/

@[simp] theorem State.setPc_regs (s : State) (v : Word) : (s.setPc v).regs = s.regs := rfl
@[simp] theorem State.setPc_pc (s : State) (v : Word) : (s.setPc v).pc = v := rfl
@[simp] theorem State.setPc_sp (s : State) (v : Word) : (s.setPc v).sp = s.sp := rfl
@[simp] theorem State.setPc_o (s : State) (v : Word) : (s.setPc v).o = s.o := rfl
@[simp] theorem State.setPc_skip (s : State) (v : Word) : (s.setPc v).skip = s.skip := rfl
@[simp] theorem State.setPc_ram (s : State) (v : Word) : (s.setPc v).ram = s.ram := rfl
@[simp] theorem State.setPc_devices (s : State) (v : Word) : (s.setPc v).devices = s.devices := rfl
@[simp] theorem State.setPc_params (s : State) (v : Word) : (s.setPc v).params = s.params := rfl
@[simp] theorem State.setPc_phase (s : State) (v : Word) : (s.setPc v).phase = s.phase := rfl
@[simp] theorem State.setPc_outputs (s : State) (v : Word) : (s.setPc v).outputs = s.outputs := rfl
@[simp] theorem State.setPc_bus (s : State) (v : Word) : (s.setPc v).bus = s.bus := rfl
@[simp] theorem State.setPc_reg (s : State) (v : Word) (q : Reg) : (s.setPc v).reg q = s.reg q := rfl

/-! ## `setSp` -/

@[simp] theorem State.setSp_regs (s : State) (v : Word) : (s.setSp v).regs = s.regs := rfl
@[simp] theorem State.setSp_pc (s : State) (v : Word) : (s.setSp v).pc = s.pc := rfl
@[simp] theorem State.setSp_sp (s : State) (v : Word) : (s.setSp v).sp = v := rfl
@[simp] theorem State.setSp_o (s : State) (v : Word) : (s.setSp v).o = s.o := rfl
@[simp] theorem State.setSp_skip (s : State) (v : Word) : (s.setSp v).skip = s.skip := rfl
@[simp] theorem State.setSp_ram (s : State) (v : Word) : (s.setSp v).ram = s.ram := rfl
@[simp] theorem State.setSp_devices (s : State) (v : Word) : (s.setSp v).devices = s.devices := rfl
@[simp] theorem State.setSp_params (s : State) (v : Word) : (s.setSp v).params = s.params := rfl
@[simp] theorem State.setSp_phase (s : State) (v : Word) : (s.setSp v).phase = s.phase := rfl
@[simp] theorem State.setSp_outputs (s : State) (v : Word) : (s.setSp v).outputs = s.outputs := rfl
@[simp] theorem State.setSp_bus (s : State) (v : Word) : (s.setSp v).bus = s.bus := rfl
@[simp] theorem State.setSp_reg (s : State) (v : Word) (q : Reg) : (s.setSp v).reg q = s.reg q := rfl

/-! ## `setO` -/

@[simp] theorem State.setO_regs (s : State) (v : Word) : (s.setO v).regs = s.regs := rfl
@[simp] theorem State.setO_pc (s : State) (v : Word) : (s.setO v).pc = s.pc := rfl
@[simp] theorem State.setO_sp (s : State) (v : Word) : (s.setO v).sp = s.sp := rfl
@[simp] theorem State.setO_o (s : State) (v : Word) : (s.setO v).o = v := rfl
@[simp] theorem State.setO_skip (s : State) (v : Word) : (s.setO v).skip = s.skip := rfl
@[simp] theorem State.setO_ram (s : State) (v : Word) : (s.setO v).ram = s.ram := rfl
@[simp] theorem State.setO_devices (s : State) (v : Word) : (s.setO v).devices = s.devices := rfl
@[simp] theorem State.setO_params (s : State) (v : Word) : (s.setO v).params = s.params := rfl
@[simp] theorem State.setO_phase (s : State) (v : Word) : (s.setO v).phase = s.phase := rfl
@[simp] theorem State.setO_outputs (s : State) (v : Word) : (s.setO v).outputs = s.outputs := rfl
@[simp] theorem State.setO_bus (s : State) (v : Word) : (s.setO v).bus = s.bus := rfl
@[simp] theorem State.setO_reg (s : State) (v : Word) (q : Reg) : (s.setO v).reg q = s.reg q := rfl

/-! ## `setSkip` -/

@[simp] theorem State.setSkip_regs (s : State) (v : Bool) : (s.setSkip v).regs = s.regs := rfl
@[simp] theorem State.setSkip_pc (s : State) (v : Bool) : (s.setSkip v).pc = s.pc := rfl
@[simp] theorem State.setSkip_sp (s : State) (v : Bool) : (s.setSkip v).sp = s.sp := rfl
@[simp] theorem State.setSkip_o (s : State) (v : Bool) : (s.setSkip v).o = s.o := rfl
@[simp] theorem State.setSkip_skip (s : State) (v : Bool) : (s.setSkip v).skip = v := rfl
@[simp] theorem State.setSkip_ram (s : State) (v : Bool) : (s.setSkip v).ram = s.ram := rfl
@[simp] theorem State.setSkip_devices (s : State) (v : Bool) : (s.setSkip v).devices = s.devices := rfl
@[simp] theorem State.setSkip_params (s : State) (v : Bool) : (s.setSkip v).params = s.params := rfl
@[simp] theorem State.setSkip_phase (s : State) (v : Bool) : (s.setSkip v).phase = s.phase := rfl
@[simp] theorem State.setSkip_outputs (s : State) (v : Bool) : (s.setSkip v).outputs = s.outputs := rfl
@[simp] theorem State.setSkip_bus (s : State) (v : Bool) : (s.setSkip v).bus = s.bus := rfl
@[simp] theorem State.setSkip_reg (s : State) (v : Bool) (q : Reg) : (s.setSkip v).reg q = s.reg q := rfl

/-! ## `emit` -/

@[simp] theorem State.emit_regs (s : State) (es : List Output) : (s.emit es).regs = s.regs := rfl
@[simp] theorem State.emit_pc (s : State) (es : List Output) : (s.emit es).pc = s.pc := rfl
@[simp] theorem State.emit_sp (s : State) (es : List Output) : (s.emit es).sp = s.sp := rfl
@[simp] theorem State.emit_o (s : State) (es : List Output) : (s.emit es).o = s.o := rfl
@[simp] theorem State.emit_skip (s : State) (es : List Output) : (s.emit es).skip = s.skip := rfl
@[simp] theorem State.emit_ram (s : State) (es : List Output) : (s.emit es).ram = s.ram := rfl
@[simp] theorem State.emit_devices (s : State) (es : List Output) : (s.emit es).devices = s.devices := rfl
@[simp] theorem State.emit_params (s : State) (es : List Output) : (s.emit es).params = s.params := rfl
@[simp] theorem State.emit_phase (s : State) (es : List Output) : (s.emit es).phase = s.phase := rfl
@[simp] theorem State.emit_outputs (s : State) (es : List Output) : (s.emit es).outputs = s.outputs ++ es := rfl
@[simp] theorem State.emit_bus (s : State) (es : List Output) : (s.emit es).bus = s.bus := rfl
@[simp] theorem State.emit_reg (s : State) (es : List Output) (q : Reg) : (s.emit es).reg q = s.reg q := rfl

/-! ## `finish` -/

@[simp] theorem State.finish_regs (s : State) (pc0 : Word) (es : List Output) : (s.finish pc0 es).regs = s.regs := rfl
@[simp] theorem State.finish_pc (s : State) (pc0 : Word) (es : List Output) : (s.finish pc0 es).pc = s.pc := rfl
@[simp] theorem State.finish_sp (s : State) (pc0 : Word) (es : List Output) : (s.finish pc0 es).sp = s.sp := rfl
@[simp] theorem State.finish_o (s : State) (pc0 : Word) (es : List Output) : (s.finish pc0 es).o = s.o := rfl
@[simp] theorem State.finish_skip (s : State) (pc0 : Word) (es : List Output) : (s.finish pc0 es).skip = s.skip := rfl
@[simp] theorem State.finish_ram (s : State) (pc0 : Word) (es : List Output) : (s.finish pc0 es).ram = s.ram := rfl
@[simp] theorem State.finish_devices (s : State) (pc0 : Word) (es : List Output) : (s.finish pc0 es).devices = s.devices := rfl
@[simp] theorem State.finish_params (s : State) (pc0 : Word) (es : List Output) : (s.finish pc0 es).params = s.params := rfl
@[simp] theorem State.finish_phase (s : State) (pc0 : Word) (es : List Output) : (s.finish pc0 es).phase = s.phase := rfl
@[simp] theorem State.finish_outputs (s : State) (pc0 : Word) (es : List Output) : (s.finish pc0 es).outputs = s.outputs ++ .instructionExecuted pc0 false :: es := rfl
@[simp] theorem State.finish_bus (s : State) (pc0 : Word) (es : List Output) : (s.finish pc0 es).bus = s.bus := rfl
@[simp] theorem State.finish_reg (s : State) (pc0 : Word) (es : List Output) (q : Reg) : (s.finish pc0 es).reg q = s.reg q := rfl

/-! ## `setRam` -/

@[simp] theorem State.setRam_regs (s : State) (a v : Word) : (s.setRam a v).regs = s.regs := rfl
@[simp] theorem State.setRam_pc (s : State) (a v : Word) : (s.setRam a v).pc = s.pc := rfl
@[simp] theorem State.setRam_sp (s : State) (a v : Word) : (s.setRam a v).sp = s.sp := rfl
@[simp] theorem State.setRam_o (s : State) (a v : Word) : (s.setRam a v).o = s.o := rfl
@[simp] theorem State.setRam_skip (s : State) (a v : Word) : (s.setRam a v).skip = s.skip := rfl
@[simp] theorem State.setRam_ram (s : State) (a v : Word) : (s.setRam a v).ram = Memory.put Config.ramCapacity s.ram a.toNat v := rfl
@[simp] theorem State.setRam_devices (s : State) (a v : Word) : (s.setRam a v).devices = s.devices := rfl
@[simp] theorem State.setRam_params (s : State) (a v : Word) : (s.setRam a v).params = s.params := rfl
@[simp] theorem State.setRam_phase (s : State) (a v : Word) : (s.setRam a v).phase = s.phase := rfl
@[simp] theorem State.setRam_outputs (s : State) (a v : Word) : (s.setRam a v).outputs = s.outputs := rfl
@[simp] theorem State.setRam_bus (s : State) (a v : Word) : (s.setRam a v).bus = s.bus := rfl
@[simp] theorem State.setRam_reg (s : State) (a v : Word) (q : Reg) : (s.setRam a v).reg q = s.reg q := rfl

/-! ## `beginStep` -/

@[simp] theorem State.beginStep_regs (s : State) : (s.beginStep).regs = s.regs := rfl
@[simp] theorem State.beginStep_pc (s : State) : (s.beginStep).pc = s.pc := rfl
@[simp] theorem State.beginStep_sp (s : State) : (s.beginStep).sp = s.sp := rfl
@[simp] theorem State.beginStep_o (s : State) : (s.beginStep).o = s.o := rfl
@[simp] theorem State.beginStep_skip (s : State) : (s.beginStep).skip = s.skip := rfl
@[simp] theorem State.beginStep_ram (s : State) : (s.beginStep).ram = s.ram := rfl
@[simp] theorem State.beginStep_devices (s : State) : (s.beginStep).devices = s.devices := rfl
@[simp] theorem State.beginStep_params (s : State) : (s.beginStep).params = s.params := rfl
@[simp] theorem State.beginStep_phase (s : State) : (s.beginStep).phase = .running := rfl
@[simp] theorem State.beginStep_outputs (s : State) : (s.beginStep).outputs = [] := rfl
@[simp] theorem State.beginStep_bus (s : State) : (s.beginStep).bus = [] := rfl
@[simp] theorem State.beginStep_reg (s : State) (q : Reg) : (s.beginStep).reg q = s.reg q := rfl

/-! ## `busWrite` -/

@[simp] theorem State.busWrite_regs (s : State) (a v : Word) : (s.busWrite a v).regs = s.regs := rfl
@[simp] theorem State.busWrite_pc (s : State) (a v : Word) : (s.busWrite a v).pc = s.pc := rfl
@[simp] theorem State.busWrite_sp (s : State) (a v : Word) : (s.busWrite a v).sp = s.sp := rfl
@[simp] theorem State.busWrite_o (s : State) (a v : Word) : (s.busWrite a v).o = s.o := rfl
@[simp] theorem State.busWrite_skip (s : State) (a v : Word) : (s.busWrite a v).skip = s.skip := rfl
@[simp] theorem State.busWrite_ram (s : State) (a v : Word) : (s.busWrite a v).ram = (routeWrite s.ram s.devices a.toNat v).ram := rfl
@[simp] theorem State.busWrite_devices (s : State) (a v : Word) : (s.busWrite a v).devices = (routeWrite s.ram s.devices a.toNat v).devices := rfl
@[simp] theorem State.busWrite_params (s : State) (a v : Word) : (s.busWrite a v).params = s.params := rfl
@[simp] theorem State.busWrite_phase (s : State) (a v : Word) : (s.busWrite a v).phase = s.phase := rfl
@[simp] theorem State.busWrite_outputs (s : State) (a v : Word) : (s.busWrite a v).outputs = s.outputs ++ (routeWrite s.ram s.devices a.toNat v).effects := rfl
@[simp] theorem State.busWrite_bus (s : State) (a v : Word) : (s.busWrite a v).bus = s.bus ++ [.write a v] := rfl
@[simp] theorem State.busWrite_reg (s : State) (a v : Word) (q : Reg) : (s.busWrite a v).reg q = s.reg q := rfl

/-! ## `busRead` -/

@[simp] theorem State.busRead_value (s : State) (a : Word) :
    (s.busRead a).1 = (routeRead s.ram s.devices a.toNat).1 := rfl
@[simp] theorem State.busRead_regs (s : State) (a : Word) : (s.busRead a).2.regs = s.regs := rfl
@[simp] theorem State.busRead_pc (s : State) (a : Word) : (s.busRead a).2.pc = s.pc := rfl
@[simp] theorem State.busRead_sp (s : State) (a : Word) : (s.busRead a).2.sp = s.sp := rfl
@[simp] theorem State.busRead_o (s : State) (a : Word) : (s.busRead a).2.o = s.o := rfl
@[simp] theorem State.busRead_skip (s : State) (a : Word) : (s.busRead a).2.skip = s.skip := rfl
@[simp] theorem State.busRead_ram (s : State) (a : Word) : (s.busRead a).2.ram = s.ram := rfl
@[simp] theorem State.busRead_devices (s : State) (a : Word) : (s.busRead a).2.devices = (routeRead s.ram s.devices a.toNat).2 := rfl
@[simp] theorem State.busRead_params (s : State) (a : Word) : (s.busRead a).2.params = s.params := rfl
@[simp] theorem State.busRead_phase (s : State) (a : Word) : (s.busRead a).2.phase = s.phase := rfl
@[simp] theorem State.busRead_outputs (s : State) (a : Word) : (s.busRead a).2.outputs = s.outputs := rfl
@[simp] theorem State.busRead_bus (s : State) (a : Word) :
    (s.busRead a).2.bus = s.bus ++ [.read a (routeRead s.ram s.devices a.toNat).1] := rfl
@[simp] theorem State.busRead_reg (s : State) (a : Word) (q : Reg) : (s.busRead a).2.reg q = s.reg q := rfl

/-! ## The register file -/

theorem Regs.get_set (g : Regs) (r q : Reg) (v : Word) : (g.set r v).get q = if q = r then v else g.get q := by
  cases r <;> cases q <;> rfl

theorem State.reg_setReg (s : State) (r q : Reg) (v : Word) :
    (s.setReg r v).reg q = if q = r then v else s.reg q :=
  Regs.get_set s.regs r q v

end Sys2Proof.Machine
end

