-- ==== Sys2Proof/Laws/Operands.lean ====
section
/-! SUPPORT. What resolving, reading and writing an operand can do: one lemma each, which later proofs cite. -/

namespace Sys2Proof.Machine

/-- Resolving an operand changes PC by the words it consumes and SP by its stack move, and nothing else (R121). -/
theorem resolve_state (op : Operand) (s : State) :
    (resolve op s).2 = { s with pc := s.pc + extraCount op, sp := s.sp + spMove op } := by
  cases op <;> simp [resolve, extraCount, operandExtra, spMove, State.setPc, State.setSp]
  case push => rw [BitVec.sub_eq_add_neg]; rfl

/-- Where an operand's location depends on the state, it depends on the registers and SP alone. -/
theorem resolve_location_congr {s t : State} (op : Operand) (hr : t.regs = s.regs) (hp : t.sp = s.sp) :
    (resolve op t).1 = (resolve op s).1 := by
  cases op <;> simp [resolve, State.reg, hr, hp]

/-- Reading a location changes at most device state and the bus trace (R136). -/
theorem readLoc_state (l : Location) (s : State) :
    (readLoc l s).2 = { s with devices := (readLoc l s).2.devices, bus := (readLoc l s).2.bus } := by
  cases l <;> rfl

/-- Reading a location leaves the wiring (R38). -/
@[simp] theorem readLoc_wiring (l : Location) (s : State) :
    (readLoc l s).2.devices.map Installation.wiring = s.devices.map Installation.wiring := by
  cases l with
  | mem a => exact State.busRead_wiring s a
  | reg | sp | pc | o | lit => rfl

theorem readLoc_wf {l : Location} {s : State} (h : s.wf = true) : (readLoc l s).2.wf = true := by
  cases l with
  | mem a => exact State.busRead_wf h
  | reg | sp | pc | o | lit => exact h

/-- A memory location costs one read of the bus, any other none (R136). -/
theorem readLoc_requests (l : Location) (s : State) :
    (readLoc l s).2.bus.map BusAccess.request = s.bus.map BusAccess.request ++ l.getRequests := by
  cases l <;> simp [readLoc, Location.getRequests, BusAccess.request]

/-- Writing a location keeps every field it does not name; O is written only by the location O (R137). -/
theorem writeLoc_wrote (l : Location) (v : Word) (s : State) :
    Wrote l v (if l = .o then v else s.o) s (writeLoc l v s) := by
  cases l with
  | reg r =>
    refine ⟨fun q => ?_, rfl, rfl, rfl, rfl, rfl, rfl, rfl, fun a => by simp [writeLoc, State.ramWord], nofun,
      fun _ => ⟨rfl, rfl⟩⟩
    simp only [writeLoc, State.reg_setReg, Location.reg.injEq, eq_comm (a := q)]
  | mem b =>
    refine ⟨fun q => by simp [writeLoc], rfl, rfl, rfl, rfl, rfl, rfl, State.busWrite_wiring s b v, fun a => ?_, ?_,
      fun h => absurd rfl (h b)⟩
    · simp only [writeLoc, State.ramWord_busWrite, Location.mem.injEq, eq_comm (a := a)]
      by_cases h : b = a <;> simp [h]
    · rintro a h
      injection h with h
      subst h
      exact ⟨rfl, rfl⟩
  | sp | pc | o | lit =>
    refine ⟨fun q => ?_, rfl, rfl, rfl, rfl, rfl, rfl, rfl, fun a => ?_, nofun, fun _ => ⟨rfl, rfl⟩⟩ <;>
      simp [writeLoc, State.ramWord]

/-- The end of a step that writes no overflow word: the result written, O unless it is the location (R137). -/
theorem storeResult_wrote (pc0 : Word) (l : Location) (v : Word) (s : State) :
    Wrote l v (if l = .o then v else s.o) s (storeResult pc0 l v s) :=
  writeLoc_wrote l v s

/-- The end of a step that writes an overflow word: the result written, then O (R157). -/
theorem storeWithOverflow_wrote (pc0 : Word) (l : Location) (v ov : Word) (s : State) :
    Wrote l v ov s (storeWithOverflow pc0 l v ov s) := by
  obtain ⟨hr, hsp, hpc, -, hrest⟩ := writeLoc_wrote l v s
  exact ⟨hr, hsp, hpc, rfl, hrest⟩

/-- An operand that names a memory word resolves to it, from any state with the same registers and SP (R122 to R133). -/
theorem resolve_of_address {a : Operand} {s t : State} {x : Word} (hr : t.regs = s.regs) (hp : t.sp = s.sp)
    (h : a.address s = some x) : (resolve a t).1 = .mem x := by
  cases a <;> simp_all [Operand.address, resolve, State.reg]

/-- An operand that names no memory word resolves to none. -/
theorem resolve_of_no_address {a : Operand} {s t : State} (h : a.address s = none) (x : Word) :
    (resolve a t).1 ≠ .mem x := by
  cases a <;> simp_all [Operand.address, resolve]

theorem writeLoc_wf {l : Location} {v : Word} {s : State} (h : s.wf = true) : (writeLoc l v s).wf = true := by
  cases l with
  | mem a => exact State.busWrite_wf h
  | reg | sp | pc | o | lit => exact h

/-- A memory location costs one write of the bus, any other none (R137). -/
theorem writeLoc_requests (l : Location) (v : Word) (s : State) :
    (writeLoc l v s).bus.map BusAccess.request = s.bus.map BusAccess.request ++ l.putRequests := by
  cases l <;> simp [writeLoc, Location.putRequests, BusAccess.request]

/-! ## Fetching -/

/-- Fetching extra words changes at most device state and the bus trace (R156). -/
theorem fetchExtra_state (w : Word) (s : State) :
    (fetchExtra w s).st = { s with devices := (fetchExtra w s).st.devices, bus := (fetchExtra w s).st.bus } := by
  simp only [fetchExtra, readIf]
  split <;> split <;> rfl

@[simp] theorem fetchExtra_wiring (w : Word) (s : State) :
    (fetchExtra w s).st.devices.map Installation.wiring = s.devices.map Installation.wiring := by
  simp only [fetchExtra, readIf]
  split <;> split <;> simp [routeRead_wiring]

theorem fetchExtra_wf {w : Word} {s : State} (h : s.wf = true) : (fetchExtra w s).st.wf = true := by
  simp only [fetchExtra, readIf]
  split <;> split
  · exact State.busRead_wf (State.busRead_wf h)
  · exact State.busRead_wf h
  · exact State.busRead_wf h
  · exact h

end Sys2Proof.Machine
end

