-- ==== Sys2Proof/Laws/PerInstr.lean ====
section
/-! SUPPORT. A law said once for every constructor of `Instr`: how many words its encoding has (rules R90, R96). -/

namespace Sys2Proof.Laws

theorem operandExtra_length (a : Operand) : (operandExtra a).length ≤ 1 := by
  cases a <;> simp [operandExtra]

theorem encodeBasic_length (op : Nat) (a b : Operand) :
    1 ≤ (encodeBasic op a b).length ∧ (encodeBasic op a b).length ≤ 3 := by
  have ha := operandExtra_length a
  have hb := operandExtra_length b
  simp only [encodeBasic, List.length_cons, List.length_append]
  omega

end Sys2Proof.Laws

namespace Sys2Proof.Laws.EncodedLength

/-- An instruction is encoded in one to three words (R90). -/
def Statement (i : Instr) : Prop := 1 ≤ (encode i).length ∧ (encode i).length ≤ 3

theorem set (a b : Operand) : Statement (.set a b) := encodeBasic_length _ a b
theorem add (a b : Operand) : Statement (.add a b) := encodeBasic_length _ a b
theorem sub (a b : Operand) : Statement (.sub a b) := encodeBasic_length _ a b
theorem mul (a b : Operand) : Statement (.mul a b) := encodeBasic_length _ a b
theorem div (a b : Operand) : Statement (.div a b) := encodeBasic_length _ a b
theorem mod (a b : Operand) : Statement (.mod a b) := encodeBasic_length _ a b
theorem shl (a b : Operand) : Statement (.shl a b) := encodeBasic_length _ a b
theorem shr (a b : Operand) : Statement (.shr a b) := encodeBasic_length _ a b
theorem and (a b : Operand) : Statement (.and a b) := encodeBasic_length _ a b
theorem bor (a b : Operand) : Statement (.bor a b) := encodeBasic_length _ a b
theorem xor (a b : Operand) : Statement (.xor a b) := encodeBasic_length _ a b
theorem ife (a b : Operand) : Statement (.ife a b) := encodeBasic_length _ a b
theorem ifn (a b : Operand) : Statement (.ifn a b) := encodeBasic_length _ a b
theorem ifg (a b : Operand) : Statement (.ifg a b) := encodeBasic_length _ a b
theorem ifb (a b : Operand) : Statement (.ifb a b) := encodeBasic_length _ a b

theorem jsr (a : Operand) : Statement (.jsr a) := by
  have ha := operandExtra_length a
  simp only [Statement, encode, List.length_cons]
  omega

theorem unk (xop f : Field6) : Statement (.unk xop f) := ⟨Nat.le_refl 1, by simp [encode]⟩

end Sys2Proof.Laws.EncodedLength
end

