-- ==== Sys2Proof/Laws/Step.lean ====
section
/-! SUPPORT. What a step and an instruction can do: inversion lemmas, so that no proof unfolds the step again. -/

namespace Sys2Proof.Machine

/-- Every way an instruction ends in a next state: a result stored, a result and an overflow word stored, a condition
recorded, or JSR's push and jump (R154). -/
inductive Completed : Instr → State → State → Prop
  | set (a b : Operand) (s : State) :
      Completed (.set a b) s
        (storeResult s.pc (readSource a b s).dest (readSource a b s).vb (readSource a b s).st)
  | result {i : Instr} {a b : Operand} (s : State) (v : Word) (h : i.stores = some (a, b))
      (ho : i.writesOverflow = false) (hs : i ≠ .set a b) :
      Completed i s (storeResult s.pc (readBoth a b s).dest v (readBoth a b s).st)
  | overflow {i : Instr} {a b : Operand} (s : State) (v ov : Word) (h : i.stores = some (a, b))
      (ho : i.writesOverflow = true) :
      Completed i s (storeWithOverflow s.pc (readBoth a b s).dest v ov (readBoth a b s).st)
  | compared {i : Instr} {a b : Operand} (s : State) (holds : Bool) (h : i.compares = some (a, b))
      (hc : holds = true ↔ i.asks (readBoth a b s).va (readBoth a b s).vb) :
      Completed i s (skipUnless s.pc holds (readBoth a b s).st)
  | jsr (a : Operand) (s : State) :
      Completed (.jsr a) s
        (((pushWord (readOperand a s).2.pc (readOperand a s).2).setPc (readOperand a s).1).finish s.pc
          [.memoryModified ((readOperand a s).2.sp - 1#16)])

theorem commonBitHolds_iff (va vb : Word) :
    commonBitHolds va vb = true ↔ ∃ k, va.getLsbD k = true ∧ vb.getLsbD k = true := by
  simp only [commonBitHolds, bne_iff_ne, ne_eq]
  constructor
  · intro h
    by_contra hn
    refine h (BitVec.eq_of_getLsbD_eq fun k _ => ?_)
    simp only [BitVec.getLsbD_and, BitVec.getLsbD_zero]
    by_contra hk
    simp only [Bool.not_eq_false, Bool.and_eq_true] at hk
    exact hn ⟨k, hk⟩
  · rintro ⟨k, ha, hb⟩ h
    have : (va &&& vb).getLsbD k = true := by simp [ha, hb]
    rw [h] at this
    simp at this

/-- A defined instruction always ends in a next state, in one of the ways `Completed` lists (R166, R235). -/
theorem exec_completed {i : Instr} (h : i.isDefined = true) (s : State) : ∃ t, exec i s = .next t ∧ Completed i s t := by
  cases i with
  | unk => cases h
  | set a b => exact ⟨_, rfl, .set a b s⟩
  | jsr a => exact ⟨_, rfl, .jsr a s⟩
  | mod a b => exact ⟨_, rfl, .result s _ rfl rfl nofun⟩
  | and a b => exact ⟨_, rfl, .result s _ rfl rfl nofun⟩
  | bor a b => exact ⟨_, rfl, .result s _ rfl rfl nofun⟩
  | xor a b => exact ⟨_, rfl, .result s _ rfl rfl nofun⟩
  | add a b => exact ⟨_, rfl, .overflow s _ _ rfl rfl⟩
  | sub a b => exact ⟨_, rfl, .overflow s _ _ rfl rfl⟩
  | mul a b => exact ⟨_, rfl, .overflow s _ _ rfl rfl⟩
  | div a b => exact ⟨_, rfl, .overflow s _ _ rfl rfl⟩
  | shl a b => exact ⟨_, rfl, .overflow s _ _ rfl rfl⟩
  | shr a b => exact ⟨_, rfl, .overflow s _ _ rfl rfl⟩
  | ife a b => exact ⟨_, rfl, .compared s _ rfl (by simp [equalHolds, Instr.asks])⟩
  | ifn a b => exact ⟨_, rfl, .compared s _ rfl (by simp [differHolds, Instr.asks])⟩
  | ifg a b => exact ⟨_, rfl, .compared s _ rfl (by simp [greaterHolds, Instr.asks])⟩
  | ifb a b => exact ⟨_, rfl, .compared s _ rfl (by simp [commonBitHolds_iff, Instr.asks])⟩

/-- An instruction that ends in a next state is a defined one, and ends as `Completed` lists. -/
theorem exec_next {i : Instr} {s t : State} (h : exec i s = .next t) : i.isDefined = true ∧ Completed i s t := by
  have hd : i.isDefined = true := by cases i <;> first | rfl | cases h
  obtain ⟨u, hu, hc⟩ := exec_completed hd s
  rw [h] at hu
  injection hu with hu
  exact ⟨hd, hu ▸ hc⟩

/-- Only an undefined extended word raises, with its extended opcode and the state as it is (R221, R231, R232). -/
theorem exec_fault {i : Instr} {s : State} {e : Fault} (h : exec i s = .fault e) :
    ∃ xop f, i = .unk xop f ∧ e = .illegalOpcode xop s := by
  cases i with
  | unk xop f =>
    injection h with h
    exact ⟨xop, f, rfl, h.symm⟩
  | _ => cases h

/-- A step that raises is a normal one that executed the undefined word it fetched (R230, R237). -/
theorem step_fault {s : State} {e : Fault} (h : step s = .fault e) :
    s.skip = false ∧ ∃ xop f, s.fetched.instr = .unk xop f ∧ e = .illegalOpcode xop s.fetched.st := by
  unfold step at h
  cases hs : s.skip with
  | true => rw [hs] at h; cases h
  | false => rw [hs] at h; exact ⟨rfl, exec_fault h⟩

/-- A step that ends in a next state passed over an instruction, or executed the one it fetched (R151). -/
theorem step_next {s t : State} (h : step s = .next t) :
    (s.skip = true ∧ t = skipOver (s.beginStep.busRead s.pc).1 (s.beginStep.busRead s.pc).2) ∨
    (s.skip = false ∧ exec s.fetched.instr s.fetched.st = .next t) := by
  unfold step at h
  cases hs : s.skip with
  | true => rw [hs] at h; simp only [if_true] at h; injection h with h; exact .inl ⟨rfl, h.symm⟩
  | false => rw [hs] at h; exact .inr ⟨rfl, h⟩

end Sys2Proof.Machine
end

