-- ==== Sys2Proof/Tests/Slice0.lean ====
section
/-! SUPPORT. The model's own tests. Words and results are those of the spec's `95_test_vectors.md` (the section is named at
each), never the model's own answers; then a witness for every statement that has hypotheses. -/

namespace Sys2Proof.Tests

open Sys2Proof Sys2Proof.Machine

/-! ## Helpers -/

/-- Reset, the words loaded from address 0. -/
def boot (ws : List Word) : State := loadWords 0#16 ws State.reset

/-- The same with A, B and O set. -/
def bootWith (a b o : Word) (ws : List Word) : State :=
  { boot ws with regs := { Regs.reset with a := a, b := b }, o := o }

/-- The next state, or reset where there is none. -/
def after : Host.Outcome State Fault Refusal → State
  | .next s => s
  | .fault _ => State.reset
  | .refused _ => State.reset

/-- The outcome is a next state. -/
def goesOn : Host.Outcome State Fault Refusal → Bool
  | .next _ => true
  | .fault _ => false
  | .refused _ => false

/-- A host action was refused with this reason. -/
def refusedAs (r : Refusal) : Host.Outcome State Fault Refusal → Bool
  | .refused q => decide (q = r)
  | .next _ => false
  | .fault _ => false

/-- A, B and O after one step from A, B and O = 0x1234, on one word. -/
def run1 (w a b : Word) : Word × Word × Word :=
  let t := after (step (bootWith a b 0x1234#16 [w]))
  (t.regs.a, t.regs.b, t.o)

/-- Two states with a keyboard, or a display, at 0x4000. -/
def keyed : State :=
  { State.reset with devices := [{ base := 0x4000, name := "kbd", device := .keyboard 16 [0x61#16, 0x62#16] }] }
def shown : State :=
  { State.reset with devices := [{ base := 0x4000, name := "scr", device := .display 4 [] }] }
/-- A state with a device without a description at 0x8000. -/
def unknown : State := { State.reset with devices := [{ base := 0x8000, name := "u", device := .undescribed 4 [] }] }

/-! ## Well-formedness and decoding -/

/-- Extended opcode 1 is no undefined one (R98). -/
theorem test_wellFormed_refuses_unk_one : (Instr.unk 1#6 0#6).wellFormed = false := by decide
theorem test_wellFormed_admits_unk_zero : (Instr.unk 0#6 0#6).wellFormed = true := by decide

/-- R91: `fb * 0x400 + fa * 0x10 + op`, field A = 0 and B = 1 (2.3 to 2.6), one word for each basic opcode. -/
theorem test_decode_basic :
    [0x0401#16, 0x0402#16, 0x0403#16, 0x0404#16, 0x0405#16, 0x0406#16, 0x0407#16, 0x0408#16].map (decodeWords · 7 9) =
      [.set (.reg .a) (.reg .b), .add (.reg .a) (.reg .b), .sub (.reg .a) (.reg .b), .mul (.reg .a) (.reg .b),
        .div (.reg .a) (.reg .b), .mod (.reg .a) (.reg .b), .shl (.reg .a) (.reg .b), .shr (.reg .a) (.reg .b)] := by
  decide
theorem test_decode_logic_conditional :
    [0x0409#16, 0x040a#16, 0x040b#16, 0x040c#16, 0x040d#16, 0x040e#16, 0x040f#16].map (decodeWords · 7 9) =
      [.and (.reg .a) (.reg .b), .bor (.reg .a) (.reg .b), .xor (.reg .a) (.reg .b), .ife (.reg .a) (.reg .b),
        .ifn (.reg .a) (.reg .b), .ifg (.reg .a) (.reg .b), .ifb (.reg .a) (.reg .b)] := by
  decide
/-- 2.1: both operands with an extra word, a's first. -/
theorem test_decode_three_words :
    decode [0x4501#16, 0x0001#16, 0x0002#16, 0xbeef#16] =
      .ok (.set (.indOff 0x0001#16 .a) (.indOff 0x0002#16 .b), [0xbeef#16]) := by decide
/-- 2.1: JSR's operand is in the top field. -/
theorem test_decode_jsr : decode [0x7810#16, 0x2000#16] = .ok (.jsr (.indNext 0x2000#16), []) := by decide
/-- 2.1: `UNK[02] 0xdead` has two words; `UNK[3f] POP` one. -/
theorem test_decode_unk :
    decode [0x7c20#16, 0xdead#16, 1#16] = .ok (.unk 2#6 0x1F#6, [1#16]) ∧ decode [0x63f0#16] = .ok (.unk 0x3F#6 0x18#6, []) :=
  by decide
/-- The words of 2.2's one-word operand modes: POP, PEEK, PUSH, SP, PC, O, literals. -/
theorem test_decode_special_operands :
    [0x6001#16, 0x6401#16, 0x6801#16, 0x6c01#16, 0x7001#16, 0x7401#16, 0xfc01#16, 0x8001#16, 0x2401#16].map
        (decodeWords · 7 9) =
      [.set (.reg .a) .pop, .set (.reg .a) .peek, .set (.reg .a) .push, .set (.reg .a) .sp, .set (.reg .a) .pc,
        .set (.reg .a) .o, .set (.reg .a) (.lit 31#5), .set (.reg .a) (.lit 0#5), .set (.reg .a) (.ind .b)] := by
  decide
theorem test_decode_refuses_short :
    decode [] = .error .noFirstWord ∧ decode [0x7de1#16, 0x1000#16] = .error .missingExtraWord := by decide
theorem test_encode :
    encode (.set (.indNext 0x1000#16) (.litNext 0x20#16)) = [0x7de1#16, 0x1000#16, 0x0020#16] ∧
    encode (.jsr (.litNext 6#16)) = [0x7c10#16, 0x0006#16] := by decide

/-! ## Instructions (2.2 to 2.6) -/

theorem test_set : (after (step (boot [0x7c01#16, 0x0030#16]))).regs.a = 0x30#16 ∧
    (after (step (boot [0x7c01#16, 0x0030#16]))).pc = 2#16 := by decide
/-- S4. -/
theorem test_set_literal_destination : run1 0x0251#16 0x55#16 0#16 = (0x55#16, 0#16, 0x1234#16) := by decide
theorem test_add : run1 0x0402#16 0xffff#16 1#16 = (0#16, 1#16, 1#16) := by decide
/-- Destination O keeps the carry (D3): `ADD O, 0x1`. -/
theorem test_add_to_o : (after (step (bootWith 0#16 0#16 7#16 [0x85d2#16]))).o = 0#16 := by decide
theorem test_sub : run1 0x0403#16 0#16 1#16 = (0xffff#16, 1#16, 0xffff#16) := by decide
theorem test_sub_no_borrow : run1 0x0403#16 0x30#16 0x20#16 = (0x10#16, 0x20#16, 0#16) := by decide
theorem test_mul : run1 0x0404#16 0xffff#16 2#16 = (0xfffe#16, 2#16, 1#16) := by decide
theorem test_mul_high : run1 0x0404#16 0xffff#16 0xffff#16 = (1#16, 0xffff#16, 0xfffe#16) := by decide
theorem test_div : run1 0x0405#16 0x1234#16 0x10#16 = (0x0123#16, 0x10#16, 0x4000#16) := by decide
theorem test_div_zero : run1 0x0405#16 5#16 0#16 = (0#16, 0#16, 0#16) := by decide
theorem test_mod : run1 0x0406#16 0x1234#16 0x100#16 = (0x34#16, 0x100#16, 0x1234#16) := by decide
theorem test_mod_zero : run1 0x0406#16 5#16 0#16 = (0#16, 0#16, 0x1234#16) := by decide
theorem test_shl : run1 0x0407#16 0x1234#16 8#16 = (0x3400#16, 8#16, 0x0012#16) := by decide
theorem test_shl_past_width : run1 0x0407#16 0xffff#16 0x11#16 = (0#16, 0x11#16, 0xfffe#16) := by decide
theorem test_shr : run1 0x0408#16 0x1234#16 8#16 = (0x0012#16, 8#16, 0x3400#16) := by decide
theorem test_shr_past_width : run1 0x0408#16 0xffff#16 0x20#16 = (0#16, 0x20#16, 0#16) := by decide
theorem test_and : run1 0x0409#16 0xff00#16 0x0ff0#16 = (0x0f00#16, 0x0ff0#16, 0x1234#16) := by decide
theorem test_bor : run1 0x040a#16 0xff00#16 0x0ff0#16 = (0xfff0#16, 0x0ff0#16, 0x1234#16) := by decide
theorem test_xor : run1 0x040b#16 0xff00#16 0x0ff0#16 = (0xf0f0#16, 0x0ff0#16, 0x1234#16) := by decide
theorem test_ife : (after (step (bootWith 5#16 6#16 0#16 [0x040c#16]))).skip = true ∧
    (after (step (bootWith 5#16 5#16 0#16 [0x040c#16]))).skip = false := by decide
theorem test_ifn : (after (step (bootWith 5#16 6#16 0#16 [0x040d#16]))).skip = false ∧
    (after (step (bootWith 5#16 5#16 0#16 [0x040d#16]))).skip = true := by decide
theorem test_ifg : (after (step (bootWith 0x8000#16 0x7fff#16 0#16 [0x040e#16]))).skip = false ∧
    (after (step (bootWith 5#16 5#16 0#16 [0x040e#16]))).skip = true := by decide
theorem test_ifb : (after (step (bootWith 0xf0#16 0x0f#16 0#16 [0x040f#16]))).skip = true ∧
    (after (step (bootWith 0xf0#16 0x10#16 0#16 [0x040f#16]))).skip = false := by decide

/-- 2.8 at address 0: `JSR POP` reads the word before it pushes over it. -/
def jsrPop : State := { boot [0x6010#16] with sp := 0x300#16, ram := [(0, 0x6010#16), (0x300, 0x444#16)] }
theorem test_jsr_pop : (after (step jsrPop)).pc = 0x444#16 ∧ (after (step jsrPop)).sp = 0x300#16 ∧
    (after (step jsrPop)).ramWord 0x300#16 = 1#16 := by decide
/-- 2.8 and P3: the push wraps and sends its event after the instruction's. -/
theorem test_jsr_outputs : (after (step (boot [0x7c10#16, 6#16]))).bus =
      [.read 0#16 0x7c10#16, .read 1#16 6#16, .write 0xffff#16 2#16] ∧
    (after (step (boot [0x7c10#16, 6#16]))).outputs = [.instructionExecuted 0#16 false, .memoryModified 0xffff#16] := by
  decide
/-- 2.8: with SP = 0x40 and operand field POP nothing moves, and a second step gives the same (D7). -/
def badWord : State := { boot [0x63f0#16] with sp := 0x40#16 }
def badWordLeft : State := { badWord with phase := .running, bus := [.read 0#16 0x63f0#16] }
theorem test_unk : step badWord = .fault (.illegalOpcode 0x3f#6 badWordLeft) ∧
    step badWordLeft = .fault (.illegalOpcode 0x3f#6 badWordLeft) := ⟨rfl, rfl⟩
/-- R156 row 1 and R278: a failing step fetched from a keyboard takes the key. -/
theorem test_unk_takes_key :
    step { State.reset with
        pc := 0x4000#16, devices := [{ base := 0x4000, name := "kbd", device := .keyboard 16 [0x60#16, 0x62#16] }] } =
      .fault (.illegalOpcode 6#6 { State.reset with
        pc := 0x4000#16, devices := [{ base := 0x4000, name := "kbd", device := .keyboard 16 [0x62#16] }]
        phase := .running, bus := [.read 0x4000#16 0x60#16] }) := rfl

/-! ## The skip step, the operands and the devices (2.2, 2.7, P5, P7) -/

/-- 2.7: an undefined word is passed over with its extra word, which is not read. -/
theorem test_skip_undefined : (after (step { boot [0x7c20#16, 0xdead#16] with skip := true })).pc = 2#16 ∧
    (after (step { boot [0x7c20#16, 0xdead#16] with skip := true })).bus = [.read 0#16 0x7c20#16] := by decide
/-- 2.2: an instruction that wraps round the address space. -/
theorem test_fetch_wraps :
    (after (step { loadWords 0xffff#16 [0x7c01#16, 0x4242#16] State.reset with pc := 0xffff#16 })).regs.a = 0x4242#16 := by
  decide
/-- 2.3: `ADD SP, POP`: SP is read after the POP (D2). -/
theorem test_add_sp_pop :
    (after (step { boot [0x61b2#16] with sp := 0x200#16, ram := [(0, 0x61b2#16), (0x200, 5#16)] })).sp = 0x206#16 := by
  decide
/-- P7: `ADD [0x4000], 0x1` takes one key and its write is discarded. -/
theorem test_keyboard_read_modify_write :
    (after (step (loadWords 0#16 [0x85e2#16, 0x4000#16] keyed))).devices =
      [{ base := 0x4000, name := "kbd", device := .keyboard 16 [0x62#16] }] := by decide
/-- P5: a write into a window does not reach the RAM. -/
theorem test_window_shadows_ram :
    (({ State.reset with devices := [{ base := 0x8000, name := "d", device := .storing 0x180 [] }] }).busWrite
      0x8000#16 0x41#16).ramWord 0x8000#16 = 0#16 := by decide
/-- S6, R62: a write into the window of a device without a description sends out what the device does. -/
theorem test_device_effects : (unknown.busWrite 0x8001#16 0x41#16).outputs =
    (Config.deviceEffects "u" 0x8000 [.write 1 0x41#16]).map (.deviceEffect "u" 0x8000) ∧
    (unknown.busWrite 0x8001#16 0x41#16).ramWord 0x8001#16 = 0#16 := ⟨rfl, by decide⟩
/-- 2.9: refused configurations. -/
theorem test_install_refuses :
    refusedAs .windowPastEnd (State.reset.install "d" 0xff80 (.storing 0x100)) = true ∧
    refusedAs .windowEmpty (State.reset.install "d" 0x8000 (.storing 0)) = true ∧
    refusedAs .windowOverlap
      ((after (State.reset.install "d" 0x8000 (.storing 0x100))).install "e" 0x80ff (.storing 1)) = true := by decide
/-- 2.1: the text of four words. -/
theorem test_text : wordsText 0x7de1#16 0x1000#16 0x20#16 = "SET [0x1000], 0x20" ∧
    wordsText 0x4501#16 1#16 2#16 = "SET [0x1+A], [0x2+B]" ∧ wordsText 0x7c20#16 0xdead#16 0#16 = "UNK[02] 0xdead" ∧
    wordsText 0xffff#16 0#16 0#16 = "IFB 0x1f, 0x1f" := by decide
theorem test_fetch_word_runs : (after (step (State.reset.withFetchWord 16 0x8411))).regs.b = 1#16 := by decide

/-! ## Witnesses: for each statement with hypotheses, data that meets them -/

theorem witness_length : (0x0010#16 : Word).toNat % 16 = 0 ∧ (0x7de1#16 : Word).toNat % 16 ≠ 0 := by decide
theorem witness_decodeOfEncode : (Instr.add (.indNext 5#16) (.litNext 6#16)).wellFormed = true ∧
    (Instr.add (.indNext 5#16) (.litNext 6#16)).isDefined = true ∧ (Instr.unk 63#6 63#6).wellFormed = true := by decide
theorem witness_undefinedWords : (decodeWords 0x0000#16 0#16 0#16).isDefined = false := by decide
theorem witness_busReadAfterWrite : keyed.inWindow 0x3fff#16 = false ∧ keyed.inWindow 0x4001#16 = false := by decide
theorem witness_routing_outside :
    ∀ m ∈ keyed.devices, ¬(m.base ≤ (0x4001#16 : Word).toNat ∧ (0x4001#16 : Word).toNat < m.base + m.device.size) := by
  decide
/-- Two windows: the second one holds the address, its last. -/
def twoWindows : State :=
  { State.reset with devices :=
      [{ base := 0x4000, name := "kbd", device := .keyboard 16 [] }] ++
      { base := 0x4001, name := "d", device := .storing 4 [] } :: [] }
theorem witness_routing_inside :
    (∀ n ∈ [({ base := 0x4000, name := "kbd", device := .keyboard 16 [] } : Installation)],
      ¬(n.base ≤ (0x4004#16 : Word).toNat ∧ (0x4004#16 : Word).toNat < n.base + n.device.size)) ∧
    0x4001 ≤ (0x4004#16 : Word).toNat ∧ (0x4004#16 : Word).toNat < 0x4001 + (Device.storing 4 []).size := by decide
theorem witness_keyboard : keyed.devices =
    [] ++ { base := (0x4000#16 : Word).toNat, name := "kbd", device := .keyboard 16 [0x61#16, 0x62#16] } :: [] := by decide
theorem witness_display : shown.devices = [] ++ { base := 0x4000, name := "scr", device := .display 4 [] } :: [] ∧
    3 < 4 ∧ 0x4000 + 4 ≤ 65536 := by decide
theorem witness_load : goesOn (keyed.load 0x3ffe#16 [1#16, 2#16]) = true ∧
    goesOn (keyed.load 0xffff#16 [1#16, 2#16]) = true := by decide
theorem witness_load_too_long : 65536 < (List.replicate 65537 (0#16 : Word)).length := by
  rw [List.length_replicate]; decide
/-- At the boundaries of its conditions a load is admitted, or refused for the one that fails. -/
theorem witness_load_admitted : keyed.phase ≠ .running ∧
    (∀ k < [1#16, 2#16].length, keyed.inWindow (0x3ffe#16 + word k) = false) ∧
    refusedAs .imageOverWindow (keyed.load 0x3fff#16 [1#16, 2#16]) = true := by decide
theorem witness_install : shown.wf = true ∧ shown.phase = .wiring ∧
    goesOn (shown.install "d" 0x4004 (.storing 0xbffc)) = true := by decide
/-- R264, R265: a program is loaded, then a step is taken. -/
theorem witness_hostOrder : goesOn (State.reset.load 0#16 [0x0401#16]) = true ∧
    (after (State.reset.load 0#16 [0x0401#16])).phase ≠ .wiring ∧
    goesOn (step (after (State.reset.load 0#16 [0x0401#16]))) = true ∧
    (after (step (after (State.reset.load 0#16 [0x0401#16])))).phase = .running := by decide
/-- P5: a storing window. -/
def stored : State := { State.reset with devices := [{ base := 0x8000, name := "d", device := .storing 0x180 [] }] }
theorem witness_storing : stored.devices = [] ++ { base := 0x8000, name := "d", device := .storing 0x180 [] } :: [] ∧
    0x17f < 0x180 ∧ 0x8000 + 0x180 ≤ 65536 := by decide
theorem witness_undescribed : unknown.devices = [] ++ { base := 0x8000, name := "u", device := .undescribed 4 [] } :: [] ∧
    3 < 4 ∧ 0x8000 + 4 ≤ 65536 := by decide
theorem witness_memoryOperands : Operand.pop.address State.reset = some 0#16 ∧
    Operand.pop.address { State.reset with sp := State.reset.sp + spMove .pop } = some 1#16 ∧
    (Operand.reg .a).address State.reset = none := by decide
theorem witness_plainFields : (0x07#6 : Field6).toNat = 7 ∧ (0x0F#6 : Field6).toNat = 0x08 + 7 ∧
    (0x19#6 : Field6).toNat = 0x19 ∧ 0x20 ≤ (0x3F#6 : Field6).toNat := by decide
theorem witness_movingFields : (0x17#6 : Field6).toNat = 0x10 + 7 ∧ (0x18#6 : Field6).toNat = 0x18 ∧
    (0x1A#6 : Field6).toNat = 0x1A ∧ (0x1B#6 : Field6).toNat = 0x1B ∧ (0x1C#6 : Field6).toNat = 0x1C ∧
    (0x1D#6 : Field6).toNat = 0x1D ∧ (0x1E#6 : Field6).toNat = 0x1E ∧ (0x1F#6 : Field6).toNat = 0x1F := by decide
/-- A word with each opcode, for the encoding clauses of the results. -/
theorem witness_encodedAs : (List.range 16).all (fun n => decide ((word (0x0400 + n)).toNat % 16 = n)) = true ∧
    (0xfc10#16 : Word).toNat % 1024 = 0x10 := by decide
theorem witness_divResult : (readBoth (.reg .a) (.reg .b) (bootWith 7#16 2#16 0#16 [])).vb ≠ 0#16 ∧
    (readBoth (.reg .a) (.reg .b) (bootWith 7#16 0#16 0#16 [])).vb = 0#16 := by decide
theorem witness_divisionLaws : (1#16 : Word) ≠ 0#16 := by decide
theorem witness_shiftsByCount : (1 ≤ (1#16 : Word).toNat ∧ (15#16 : Word).toNat ≤ 15) ∧ (16#16 : Word).toNat = 16 ∧
    (17 ≤ (17#16 : Word).toNat ∧ (31#16 : Word).toNat ≤ 31) ∧ 32 ≤ (32#16 : Word).toNat ∧ 32 ≤ (0xffff#16 : Word).toNat := by
  decide
theorem witness_conditionals : (Instr.ifg .pop (.lit 3#5)).compares = some (.pop, .lit 3#5) ∧ State.reset.skip = false := by
  decide
theorem witness_storingFrame : (Instr.set .push .pop).stores = some (.push, .pop) ∧
    (resolveBoth .push .pop State.reset).1 = .mem 0xffff#16 := by decide
/-- A storing instruction with a memory destination, and one with a register. -/
theorem witness_storeEffects : (Instr.add (.indNext 0x8000#16) (.lit 1#5)).stores = some (.indNext 0x8000#16, .lit 1#5) ∧
    (resolveBoth (.indNext 0x8000#16) (.lit 1#5) unknown).1 = .mem 0x8000#16 ∧
    (resolveBoth (.reg .a) (.lit 1#5) unknown).1 ≠ .mem 0x8000#16 := by decide
theorem witness_literalDestination : (Instr.mod (.lit 5#5) .pop).stores = some (.lit 5#5, .pop) ∧
    (Instr.mod (.lit 5#5) .pop).writesOverflow = false ∧ (Operand.lit 5#5).isLiteral = true := by decide
theorem witness_callThenReturn : exec (.jsr (.lit 6#5)) keyed = .next (after (exec (.jsr (.lit 6#5)) keyed)) ∧
    keyed.inWindow (after (exec (.jsr (.lit 6#5)) keyed)).sp = false :=
  ⟨rfl, by decide⟩
theorem witness_stepRuns : (boot [0x7c01#16, 0x30#16]).skip = false ∧
    (Instr.set (.reg .a) (.litNext 0x30#16)).wellFormed = true ∧
    decode [(boot [0x7c01#16, 0x30#16]).fetched.first, (boot [0x7c01#16, 0x30#16]).fetched.extra1,
      (boot [0x7c01#16, 0x30#16]).fetched.extra2] = .ok (.set (.reg .a) (.litNext 0x30#16), [0#16]) ∧
    (boot [0x7c01#16, 0x30#16]).inWindow 0#16 = false ∧ (boot [0x7c01#16, 0x30#16]).inWindow 1#16 = false ∧
    (boot [0x7c01#16, 0x30#16]).inWindow 2#16 = false := by decide
theorem witness_skipStep : ({ State.reset with skip := true }).skip = true := by decide
/-- A normal step that ends in a next state: for the statements about every such step. -/
theorem witness_normalStep : step (boot [0x0401#16]) = .next (after (step (boot [0x0401#16]))) ∧
    (boot [0x0401#16]).skip = false ∧ (boot [0x0401#16]).wf = true ∧
    (boot [0x0401#16]).fetched.instr = .set (.reg .a) (.reg .b) ∧
    (resolveBoth (.reg .a) (.reg .b) (boot [0x0401#16]).fetched.st).1 = .reg .a :=
  ⟨rfl, by decide⟩
theorem witness_busOrder : (boot [0x2484#16]).fetched.instr.stores = some (.ind .a, .ind .b) ∧
    (boot [0x81ec#16, 0x4000#16]).fetched.instr.compares = some (.indNext 0x4000#16, .lit 0#5) ∧
    (boot [0x7010#16]).fetched.instr = .jsr .pc := by decide
theorem witness_fetchWord : decodeTableWord 16 0x03f0 = some (.unk 63#6 0#6) ∧
    decodeTableWord 16 0x0402 = some (.add (.reg .a) (.reg .b)) := by decide
theorem witness_reachable : Reachable State.reset := .reset Config.defaults
/-- A step that raises, from a well-formed state with no window at PC. -/
theorem witness_raises : step badWord = .fault (.illegalOpcode 0x3f#6 badWordLeft) ∧ badWord.wf = true ∧
    badWord.inWindow badWord.pc = false := ⟨rfl, by decide⟩
/-- A device no access of the step touches. -/
theorem witness_devices : keyed.devices[0]? =
      some { base := 0x4000, name := "kbd", device := .keyboard 16 [0x61#16, 0x62#16] } ∧
    goesOn (step (loadWords 0#16 [0x0401#16] keyed)) = true ∧
    (after (step (loadWords 0#16 [0x0401#16] keyed))).bus = [.read 0#16 0x0401#16] := by decide
/-- Two states that differ in a RAM word under a window only. -/
theorem witness_shadowed : ({ keyed with ram := [(0x4000, 9#16)] }).ramWord 0x4000#16 ≠ keyed.ramWord 0x4000#16 ∧
    ∀ a, keyed.inWindow a = false → ({ keyed with ram := [(0x4000, 9#16)] }).ramWord a = keyed.ramWord a := by
  refine ⟨by decide, fun a h => ?_⟩
  have : ¬ 0x4000 = a.toNat := by
    intro e
    simp [keyed, State.inWindow, Installation.covers, ← e, Device.size] at h
  have hl : a.toNat % 65536 = a.toNat := Nat.mod_eq_of_lt a.isLt
  simp only [State.ramWord, Memory.get, Config.ramCapacity, hl, Memory.lookup, this, if_false]
  rfl
theorem witness_environment : goesOn (keyed.pressKey 0 0x63#16) = true ∧
    goesOn (({ State.reset with devices := [{ base := 0, name := "u", device := .undescribed 4 [] }] }).environmentAct 0 7)
      = true := by decide

end Sys2Proof.Tests
end

section
/-! SUPPORT. Proofs about the state across a step (O49, O35, O41, O8): which devices a step can change, what the
operands leave unchanged, and where a result goes. -/

namespace Sys2Proof.Machine

/-! ## Devices change only through the bus -/

/-- A routed read leaves every device whose window does not hold the address (R58). -/
theorem routeRead_untouched (ram : Memory) {ds : List Installation} {a k : Nat} {m : Installation}
    (hk : ds[k]? = some m) (ha : m.covers a = false) : (routeRead ram ds a).2[k]? = some m := by
  induction ds generalizing k with
  | nil => simp at hk
  | cons n ns ih =>
    simp only [routeRead]
    cases k with
    | zero =>
      obtain rfl : n = m := by simpa using hk
      simp [ha]
    | succ k =>
      rw [List.getElem?_cons_succ] at hk
      split
      · exact hk
      · exact ih hk

/-- A routed write leaves every device whose window does not hold the address (R59). -/
theorem routeWrite_untouched (ram : Memory) {ds : List Installation} {a k : Nat} {m : Installation} (v : Word)
    (hk : ds[k]? = some m) (ha : m.covers a = false) : (routeWrite ram ds a v).devices[k]? = some m := by
  induction ds generalizing k with
  | nil => simp at hk
  | cons n ns ih =>
    simp only [routeWrite]
    cases k with
    | zero =>
      obtain rfl : n = m := by simpa using hk
      simp [ha]
    | succ k =>
      rw [List.getElem?_cons_succ] at hk
      split
      · exact hk
      · exact ih hk

/-- From `s` to `t` the devices changed only through bus accesses: the trace only grew, the wiring is the same, and a
device whose window no access in the trace hit is as it was (R38, R42). -/
structure ViaBus (s t : State) : Prop where
  grows : s.bus ⊆ t.bus
  wiring : t.devices.map Installation.wiring = s.devices.map Installation.wiring
  untouched : ∀ (k : Nat) (m : Installation), s.devices[k]? = some m →
    (∀ q ∈ t.bus, m.covers q.addr.toNat = false) → t.devices[k]? = some m

/-- Changes that concern neither devices nor trace. -/
theorem ViaBus.of_eq {s t : State} (hd : t.devices = s.devices) (hb : t.bus = s.bus) : ViaBus s t :=
  ⟨by simp [hb], by rw [hd], fun _ _ hk _ => hd ▸ hk⟩

theorem ViaBus.trans {s t u : State} (h : ViaBus s t) (h' : ViaBus t u) : ViaBus s u :=
  ⟨List.Subset.trans h.grows h'.grows, h'.wiring.trans h.wiring,
    fun k m hk hq => h'.untouched k m (h.untouched k m hk fun q hm => hq q (h'.grows hm)) hq⟩

theorem busRead_viaBus (s : State) (a : Word) : ViaBus s (s.busRead a).2 where
  grows := by simp
  wiring := State.busRead_wiring s a
  untouched k m hk hq := routeRead_untouched s.ram hk (hq (.read a (s.busRead a).1) (by simp))

theorem busWrite_viaBus (s : State) (a v : Word) : ViaBus s (s.busWrite a v) where
  grows := by simp
  wiring := State.busWrite_wiring s a v
  untouched k m hk hq := routeWrite_untouched s.ram v hk (hq (.write a v) (by simp))

theorem readLoc_viaBus (l : Location) (s : State) : ViaBus s (readLoc l s).2 := by
  cases l with
  | mem a => exact busRead_viaBus s a
  | reg | sp | pc | o | lit => exact .of_eq rfl rfl

theorem pushWord_viaBus (v : Word) (s : State) : ViaBus s (pushWord v s) :=
  (ViaBus.of_eq (s := s) (t := s.setSp (s.sp - 1#16)) rfl rfl).trans (busWrite_viaBus _ (s.sp - 1#16) v)

theorem skipUnless_viaBus (pc0 : Word) (holds : Bool) (s : State) : ViaBus s (skipUnless pc0 holds s) := by
  cases holds <;> exact .of_eq rfl rfl

theorem readIf_viaBus (wanted : Bool) (a : Word) (s : State) : ViaBus s (readIf wanted a s).2 := by
  cases wanted with
  | false => exact .of_eq rfl rfl
  | true => exact busRead_viaBus s a

theorem fetchExtra_viaBus (w : Word) (s : State) : ViaBus s (fetchExtra w s).st :=
  (readIf_viaBus _ _ s).trans (readIf_viaBus _ _ _)

/-- What a normal step reads before it executes (R156). -/
theorem State.fetched_viaBus (s : State) : ViaBus s.beginStep s.fetched.st :=
  (busRead_viaBus _ _).trans (fetchExtra_viaBus _ _)

/-- A written result changes devices through its one bus write at most (R137). -/
theorem Wrote.viaBus {l : Location} {v o' : Word} {s t : State} (h : Wrote l v o' s t) : ViaBus s t := by
  obtain ⟨-, -, -, -, -, -, -, -, -, hmem, hother⟩ := h
  by_cases hl : ∃ a, l = .mem a
  · obtain ⟨a, rfl⟩ := hl
    obtain ⟨hd, hb⟩ := hmem a rfl
    exact (busWrite_viaBus s a v).trans (.of_eq hd hb)
  · obtain ⟨hd, hb⟩ := hother fun a ha => hl ⟨a, ha⟩
    exact .of_eq hd hb

/-! ## The operand phase -/

/-- From `s` to `u` PC passed an instruction's first word and `words` extra words, SP made the moves `move`, and
otherwise only bus reads happened (R121, R136, R154). -/
structure OperandPhase (words move : Word) (s u : State) : Prop where
  state : u = { s with pc := s.pc + 1#16 + words, sp := s.sp + move, devices := u.devices, bus := u.bus }
  viaBus : ViaBus s u

/-- Resolving both operands moves PC and SP, and nothing else (R134). -/
theorem resolveBoth_state (a b : Operand) (s : State) :
    (resolveBoth a b s).2.2 =
      { s with pc := s.pc + 1#16 + (extraCount a + extraCount b), sp := s.sp + (spMove a + spMove b) } := by
  simp only [resolveBoth, resolve_state, State.setPc, BitVec.add_assoc]

theorem resolveBoth_phase (a b : Operand) (s : State) :
    OperandPhase (extraCount a + extraCount b) (spMove a + spMove b) s (resolveBoth a b s).2.2 := by
  rw [resolveBoth_state]
  exact ⟨rfl, .of_eq rfl rfl⟩

theorem OperandPhase.readLoc {words move : Word} {s u : State} (h : OperandPhase words move s u) (l : Location) :
    OperandPhase words move s (readLoc l u).2 where
  state := by rw [readLoc_state, h.state]
  viaBus := h.viaBus.trans (readLoc_viaBus l u)

theorem readBoth_phase (a b : Operand) (s : State) :
    OperandPhase (extraCount a + extraCount b) (spMove a + spMove b) s (readBoth a b s).st :=
  ((resolveBoth_phase a b s).readLoc _).readLoc _

theorem readSource_phase (a b : Operand) (s : State) :
    OperandPhase (extraCount a + extraCount b) (spMove a + spMove b) s (readSource a b s).st :=
  (resolveBoth_phase a b s).readLoc _

theorem readOperand_phase (a : Operand) (s : State) :
    OperandPhase (extraCount a) (spMove a) s (readOperand a s).2 := by
  have hresolve : OperandPhase (extraCount a) (spMove a) s (resolve a (s.setPc (s.pc + 1#16))).2 := by
    rw [resolve_state]
    exact ⟨rfl, .of_eq rfl rfl⟩
  exact hresolve.readLoc _

theorem OperandPhase.sp {words move : Word} {s u : State} (h : OperandPhase words move s u) :
    u.sp = s.sp + move := by
  rw [h.state]

theorem OperandPhase.pc {words move : Word} {s u : State} (h : OperandPhase words move s u) :
    u.pc = s.pc + 1#16 + words := by
  rw [h.state]

theorem OperandPhase.skip {words move : Word} {s u : State} (h : OperandPhase words move s u) : u.skip = s.skip := by
  rw [h.state]

/-! ## Where the result of a storing instruction goes -/

theorem isDefined_of_stores {i : Instr} {ab : Operand × Operand} (h : i.stores = some ab) :
    i.isDefined = true := by
  cases i with
  | unk => cases h
  | _ => rfl

theorem compares_of_stores {i : Instr} {ab : Operand × Operand} (h : i.stores = some ab) :
    i.compares = none := by
  cases i with
  | ife | ifn | ifg | ifb => cases h
  | _ => rfl

/-- An instruction that stores ends its operand phase and writes one word to the location of operand a; O is written
besides by the six that have an overflow word only (R29, R137). -/
theorem Completed.stored {i : Instr} {a b : Operand} {s t : State} (h : Completed i s t) (hi : i.stores = some (a, b)) :
    ∃ v o' u, OperandPhase (extraCount a + extraCount b) (spMove a + spMove b) s u ∧
      Wrote (resolveBoth a b s).1 v o' u t ∧
      (i.writesOverflow = false → o' = if (resolveBoth a b s).1 = .o then v else u.o) := by
  cases h with
  | set =>
    cases hi
    exact ⟨_, _, _, readSource_phase a b s, storeResult_wrote _ _ _ _, fun _ => rfl⟩
  | result _ _ h' =>
    cases hi.symm.trans h'
    exact ⟨_, _, _, readBoth_phase a b s, storeResult_wrote _ _ _ _, fun _ => rfl⟩
  | overflow _ _ _ h' ho =>
    cases hi.symm.trans h'
    exact ⟨_, _, _, readBoth_phase a b s, storeWithOverflow_wrote _ _ _ _ _, fun hf => by simp [ho] at hf⟩
  | compared _ _ h' => cases (compares_of_stores hi).symm.trans h'
  | jsr => cases hi

/-- Every way a defined instruction ends changes devices only through its bus accesses (R154). -/
theorem Completed.viaBus {i : Instr} {s t : State} (h : Completed i s t) : ViaBus s t := by
  cases h with
  | set a b => exact (readSource_phase a b s).viaBus.trans (storeResult_wrote _ _ _ _).viaBus
  | result => exact (readBoth_phase _ _ s).viaBus.trans (storeResult_wrote _ _ _ _).viaBus
  | overflow => exact (readBoth_phase _ _ s).viaBus.trans (storeWithOverflow_wrote _ _ _ _ _).viaBus
  | compared => exact (readBoth_phase _ _ s).viaBus.trans (skipUnless_viaBus _ _ _)
  | jsr a => exact ((readOperand_phase a s).viaBus.trans (pushWord_viaBus _ _)).trans (.of_eq rfl rfl)

/-- A step, one that raises too, changes devices only through the accesses in its trace (R38, R78). -/
theorem step_viaBus {s t : State} (h : step s = .next t ∨ ∃ xop, step s = .fault (.illegalOpcode xop t)) :
    ViaBus s.beginStep t := by
  obtain h | ⟨xop, h⟩ := h
  · obtain ⟨-, rfl⟩ | ⟨-, hexec⟩ := step_next h
    · exact (busRead_viaBus s.beginStep s.pc).trans (.of_eq rfl rfl)
    · exact s.fetched_viaBus.trans (exec_next hexec).2.viaBus
  · obtain ⟨-, _, _, -, hleft⟩ := step_fault h
    injection hleft with _ hleft
    exact hleft ▸ s.fetched_viaBus

/-! ## The pending-skip flag -/

/-- A conditional sets the flag when its condition is false, and otherwise leaves it (R210). -/
theorem skipUnless_skip (pc0 : Word) (holds : Bool) (s : State) :
    (skipUnless pc0 holds s).skip = (!holds || s.skip) := by
  cases holds <;> rfl

/-- An instruction run with no skip pending leaves one exactly if it is a conditional whose test failed (R210). -/
theorem Completed.skip_iff {i : Instr} {s t : State} (h : Completed i s t) (hs : s.skip = false) :
    t.skip = true ↔
      ∃ a b, i.compares = some (a, b) ∧ ¬ i.asks (readBoth a b s).va (readBoth a b s).vb := by
  cases hi : i.stores with
  | some ab =>
    obtain ⟨_, _, u, hphase, ⟨-, -, -, -, hskip, -⟩, -⟩ := h.stored hi
    simp [hskip, hphase.skip, hs, compares_of_stores hi]
  | none =>
    cases h with
    | set => cases hi
    | result _ _ h' => cases hi.symm.trans h'
    | overflow _ _ _ h' => cases hi.symm.trans h'
    | jsr a =>
      have hskip : (readOperand a s).2.skip = false := (readOperand_phase a s).skip.trans hs
      simp [pushWord, hskip, Instr.compares]
    | @compared _ a b _ holds h' hc =>
      have hskip : (readBoth a b s).st.skip = false := (readBoth_phase a b s).skip.trans hs
      have hset : (skipUnless s.pc holds (readBoth a b s).st).skip = true ↔
          ¬ i.asks (readBoth a b s).va (readBoth a b s).vb := by
        rw [skipUnless_skip, hskip, Bool.or_false, Bool.not_eq_true', ← hc, Bool.not_eq_true]
      simpa [h'] using hset

theorem State.fetched_skip (s : State) : s.fetched.st.skip = s.skip := by
  rw [State.fetched, fetchExtra_state]
  rfl

/-! ## The statements -/

/-- Settles O49: each part of a step is a bus access or leaves devices and trace alone. -/
theorem devicesChangeOnlyByAccess : Obligations.DevicesChangeOnlyByAccess := by
  intro s t h
  have hvia := step_viaBus h
  exact ⟨hvia.wiring, hvia.untouched⟩

/-- Settles O35: the operand phase moves PC and SP only, and the write changes its location only. -/
theorem storingInstructionFrame : Obligations.StoringInstructionFrame := by
  intro i a b s hi
  obtain ⟨t, hexec, hdone⟩ := exec_completed (isDefined_of_stores hi) s
  obtain ⟨v, o', u, hphase, ⟨hreg, hsp, hpc, ho, hskip, hparams, hphaseField, hwiring, hram, -, -⟩, ho'⟩ :=
    hdone.stored hi
  have hu := hphase.state
  refine ⟨t, hexec, fun r hl => ?_, fun hl => ?_, fun hl => ?_, fun hl hov => ?_, ?_, ?_, ?_,
    hwiring.trans hphase.viaBus.wiring, fun x hx => ?_⟩
  · rw [hreg, if_neg hl, hu]; rfl
  · rw [hsp, if_neg hl, hphase.sp, ← BitVec.add_assoc]
  · rw [hpc, if_neg hl, hphase.pc, ← BitVec.add_assoc]
  · rw [ho, ho' hov, if_neg hl, hu]
  · rw [hskip, hphase.skip]
  · rw [hparams, hu]
  · rw [hphaseField, hu]
  · have hkept : ¬((resolveBoth a b s).1 = .mem x ∧ u.inWindow x = false) := by
      rw [State.inWindow_of_wiring hphase.viaBus.wiring]
      rintro ⟨hl, hw⟩
      simp [hl, hw] at hx
    rw [hram, if_neg hkept, hu]
    rfl

/-- Settles O41: a skip step clears the flag, and a normal step sets it in a conditional only. -/
theorem skipSetOnlyByFailedTest : Obligations.SkipSetOnlyByFailedTest := by
  intro s t h
  obtain ⟨hs, rfl⟩ | ⟨hs, hexec⟩ := step_next h
  · simp [skipOver, hs]
  · simpa [hs] using (exec_next hexec).2.skip_iff (s.fetched_skip.trans hs)

/-- Settles O8: after reset the RAM lists no word and no window is installed. -/
theorem resetIsWellFormed : Obligations.ResetIsWellFormed := by
  have hreset : ∀ p, (State.resetWith p).wf = true := fun _ => rfl
  exact ⟨hreset Config.defaults, hreset⟩

end Sys2Proof.Machine
end

section
/-! SUPPORT. The step as a run of bus accesses (O47, O48): whatever every bus access keeps, a step, a load and a read
from outside keep. -/

namespace Sys2Proof.Machine

/-! ## Runs of bus accesses -/

/-- From `s` on, RAM and devices changed only through bus accesses; between those anything else may have changed. -/
inductive BusRun (s : State) : State → Prop
  | refl : BusRun s s
  | read {t : State} (a : Word) : BusRun s t → BusRun s (t.busRead a).2
  | write {t : State} (a v : Word) : BusRun s t → BusRun s (t.busWrite a v)
  | core {t u : State} : BusRun s t → u.ram = t.ram → u.devices = t.devices → BusRun s u

theorem BusRun.trans {s t u : State} (h : BusRun s t) (h' : BusRun t u) : BusRun s u := by
  induction h' with
  | refl => exact h
  | read a _ ih => exact ih.read a
  | write a v _ ih => exact ih.write a v
  | core _ hram hdev ih => exact ih.core hram hdev

/-- The invariant speaks of the RAM and the devices only. -/
theorem State.wf_congr {s t : State} (hram : t.ram = s.ram) (hdev : t.devices = s.devices) : t.wf = s.wf := by
  simp only [State.wf, hram, hdev]

/-- Bus accesses keep the invariant (R50, R57, R249). -/
theorem BusRun.wf {s t : State} (h : BusRun s t) (hs : s.wf = true) : t.wf = true := by
  induction h with
  | refl => exact hs
  | read a _ ih => exact State.busRead_wf ih
  | write a v _ ih => exact State.busWrite_wf ih
  | core _ hram hdev ih => exact (State.wf_congr hram hdev).trans ih

theorem BusRun.wiring {s t : State} (h : BusRun s t) :
    t.devices.map Installation.wiring = s.devices.map Installation.wiring := by
  induction h with
  | refl => rfl
  | read a _ ih => exact (State.busRead_wiring _ a).trans ih
  | write a v _ ih => exact (State.busWrite_wiring _ a v).trans ih
  | core _ _ hdev ih => exact hdev ▸ ih

/-- Bus accesses change no RAM word under a window (R59, R61). -/
theorem BusRun.ramWord_of_inWindow {s t : State} (h : BusRun s t) {a : Word} (ha : s.inWindow a = true) :
    t.ramWord a = s.ramWord a := by
  induction h with
  | refl => rfl
  | read b _ ih => exact ih
  | @write t b v hrun ih =>
    have hkept : ¬(a = b ∧ t.inWindow b = false) := by
      rintro ⟨rfl, hb⟩
      rw [State.inWindow_of_wiring hrun.wiring, ha] at hb
      cases hb
    rw [State.ramWord_busWrite, if_neg hkept, ih]
  | core _ hram _ ih => rw [← ih, State.ramWord, State.ramWord, hram]

/-! ## The parts of a step -/

theorem readLoc_busRun (l : Location) (s : State) : BusRun s (readLoc l s).2 := by
  cases l with
  | mem a => exact .read a .refl
  | reg | sp | pc | o | lit => exact .refl

theorem writeLoc_busRun (l : Location) (v : Word) (s : State) : BusRun s (writeLoc l v s) := by
  cases l with
  | mem a => exact .write a v .refl
  | reg | sp | pc | o | lit => exact .core .refl rfl rfl

theorem resolveBoth_busRun (a b : Operand) (s : State) : BusRun s (resolveBoth a b s).2.2 := by
  rw [resolveBoth_state]
  exact .core .refl rfl rfl

theorem readBoth_busRun (a b : Operand) (s : State) : BusRun s (readBoth a b s).st :=
  ((resolveBoth_busRun a b s).trans (readLoc_busRun _ _)).trans (readLoc_busRun _ _)

theorem readSource_busRun (a b : Operand) (s : State) : BusRun s (readSource a b s).st :=
  (resolveBoth_busRun a b s).trans (readLoc_busRun _ _)

theorem readOperand_busRun (a : Operand) (s : State) : BusRun s (readOperand a s).2 := by
  have hresolve : BusRun s (resolve a (s.setPc (s.pc + 1#16))).2 := by
    rw [resolve_state]
    exact .core .refl rfl rfl
  exact hresolve.trans (readLoc_busRun _ _)

theorem storeResult_busRun (pc0 : Word) (l : Location) (v : Word) (s : State) :
    BusRun s (storeResult pc0 l v s) :=
  (writeLoc_busRun l v s).core rfl rfl

theorem storeWithOverflow_busRun (pc0 : Word) (l : Location) (v ov : Word) (s : State) :
    BusRun s (storeWithOverflow pc0 l v ov s) :=
  (writeLoc_busRun l v s).core rfl rfl

theorem skipUnless_busRun (pc0 : Word) (holds : Bool) (s : State) : BusRun s (skipUnless pc0 holds s) := by
  cases holds <;> exact .core .refl rfl rfl

theorem pushWord_busRun (v : Word) (s : State) : BusRun s (pushWord v s) :=
  .write _ v (.core (u := s.setSp (s.sp - 1#16)) .refl rfl rfl)

theorem readIf_busRun (wanted : Bool) (a : Word) (s : State) : BusRun s (readIf wanted a s).2 := by
  cases wanted with
  | false => exact .refl
  | true => exact .read a .refl

/-- Every way a defined instruction ends is a run of bus accesses (R154). -/
theorem Completed.busRun {i : Instr} {s t : State} (h : Completed i s t) : BusRun s t := by
  cases h with
  | set => exact (readSource_busRun _ _ s).trans (storeResult_busRun _ _ _ _)
  | result => exact (readBoth_busRun _ _ s).trans (storeResult_busRun _ _ _ _)
  | overflow => exact (readBoth_busRun _ _ s).trans (storeWithOverflow_busRun _ _ _ _ _)
  | compared => exact (readBoth_busRun _ _ s).trans (skipUnless_busRun _ _ _)
  | jsr a => exact ((readOperand_busRun a s).trans (pushWord_busRun _ _)).core rfl rfl

theorem firstRead_busRun (s : State) : BusRun s (s.beginStep.busRead s.pc).2 :=
  .read _ (.core (u := s.beginStep) .refl rfl rfl)

theorem State.fetched_busRun (s : State) : BusRun s s.fetched.st :=
  ((firstRead_busRun s).trans (readIf_busRun _ _ _)).trans (readIf_busRun _ _ _)

/-- A step, one that raises too, is a run of bus accesses (R78, R156). -/
theorem step_busRun {s t : State} (h : step s = .next t ∨ ∃ xop, step s = .fault (.illegalOpcode xop t)) :
    BusRun s t := by
  obtain h | ⟨xop, h⟩ := h
  · obtain ⟨-, rfl⟩ | ⟨-, hexec⟩ := step_next h
    · exact (firstRead_busRun s).core rfl rfl
    · exact s.fetched_busRun.trans (exec_next hexec).2.busRun
  · obtain ⟨-, _, _, -, hleft⟩ := step_fault h
    injection hleft with _ hleft
    exact hleft ▸ s.fetched_busRun

/-- Settles O47: a step is a run of bus accesses, and each of those keeps the invariant. -/
theorem stepKeepsWellFormed : Obligations.StepKeepsWellFormed :=
  fun _ _ hs => ⟨fun h => (step_busRun (.inl h)).wf hs, fun xop h => (step_busRun (.inr ⟨xop, h⟩)).wf hs⟩

end Sys2Proof.Machine
end

section
/-! SUPPORT. Two runs side by side (O50): states that differ only in RAM words under windows take the same step. -/

namespace Sys2Proof.Machine

/-! ## States that differ only under windows -/

/-- Two states are alike when they differ at most in RAM words that a window hides (R61). -/
structure Alike (s s' : State) : Prop where
  rest : s' = { s with ram := s'.ram }
  visible : ∀ a, s.inWindow a = false → s'.ramWord a = s.ramWord a

theorem Alike.regs {s s' : State} (h : Alike s s') : s'.regs = s.regs := by rw [h.rest]
theorem Alike.pc {s s' : State} (h : Alike s s') : s'.pc = s.pc := by rw [h.rest]
theorem Alike.sp {s s' : State} (h : Alike s s') : s'.sp = s.sp := by rw [h.rest]
theorem Alike.o {s s' : State} (h : Alike s s') : s'.o = s.o := by rw [h.rest]
theorem Alike.skip {s s' : State} (h : Alike s s') : s'.skip = s.skip := by rw [h.rest]
theorem Alike.params {s s' : State} (h : Alike s s') : s'.params = s.params := by rw [h.rest]
theorem Alike.devices {s s' : State} (h : Alike s s') : s'.devices = s.devices := by rw [h.rest]
theorem Alike.outputs {s s' : State} (h : Alike s s') : s'.outputs = s.outputs := by rw [h.rest]
theorem Alike.bus {s s' : State} (h : Alike s s') : s'.bus = s.bus := by rw [h.rest]

theorem Alike.symm {s s' : State} (h : Alike s s') : Alike s' s where
  rest := by rw [h.rest]
  visible a ha := (h.visible a (by rw [← ha, State.inWindow, State.inWindow, h.devices])).symm

/-- An update that neither looks at the RAM nor changes RAM or devices keeps states alike. -/
theorem Alike.update {s s' : State} (h : Alike s s') (f : State → State)
    (hdev : ∀ t, (f t).devices = t.devices) (hram : ∀ t ram, f { t with ram := ram } = { f t with ram := ram }) :
    Alike (f s) (f s') := by
  have hown : ∀ t, (f t).ram = t.ram := fun t => (congrArg State.ram (hram t t.ram) :)
  refine ⟨?_, fun a ha => ?_⟩
  · rw [hown, ← hram, ← h.rest]
  · have hs : s.inWindow a = false := by rw [← ha, State.inWindow, State.inWindow, hdev]
    simpa only [State.ramWord, hown] using h.visible a hs

/-! ## One bus access -/

/-- Alike states route a read to the same place: a window, or a RAM word no window hides (R58). -/
protected theorem Alike.routeRead {s s' : State} (h : Alike s s') (a : Word) :
    routeRead s'.ram s'.devices a.toNat = routeRead s.ram s.devices a.toNat := by
  rw [h.devices]
  cases ha : s.inWindow a with
  | true => exact routeRead_inside ha
  | false =>
    have hword : Memory.get Config.ramCapacity s'.ram a.toNat = Memory.get Config.ramCapacity s.ram a.toNat :=
      h.visible a ha
    rw [routeRead_outside ha, routeRead_outside ha, hword]

theorem Alike.busRead {s s' : State} (h : Alike s s') (a : Word) :
    (s'.busRead a).1 = (s.busRead a).1 ∧ Alike (s.busRead a).2 (s'.busRead a).2 := by
  refine ⟨by simp only [State.busRead_value, h.routeRead], ?_, fun b hb => h.visible b ?_⟩
  · simp only [State.busRead, h.routeRead, h.bus]
    rw [h.rest]
  · rwa [State.inWindow_of_wiring (State.busRead_wiring s a)] at hb

/-- Alike states route a write to the same place, with the same effects (R59). -/
protected theorem Alike.routeWrite {s s' : State} (h : Alike s s') (a v : Word) :
    (routeWrite s'.ram s'.devices a.toNat v).devices = (routeWrite s.ram s.devices a.toNat v).devices ∧
    (routeWrite s'.ram s'.devices a.toNat v).effects = (routeWrite s.ram s.devices a.toNat v).effects := by
  rw [h.devices]
  cases ha : s.inWindow a with
  | true => rw [routeWrite_inside ha s.ram]; exact ⟨rfl, rfl⟩
  | false => rw [routeWrite_outside ha, routeWrite_outside ha]; exact ⟨rfl, rfl⟩

theorem Alike.busWrite {s s' : State} (h : Alike s s') (a v : Word) : Alike (s.busWrite a v) (s'.busWrite a v) := by
  obtain ⟨hdev, heffects⟩ := h.routeWrite a v
  refine ⟨?_, fun b hb => ?_⟩
  · simp only [State.busWrite, hdev, heffects, h.outputs, h.bus]
    rw [h.rest]
  · rw [State.inWindow_of_wiring (State.busWrite_wiring s a v)] at hb
    have hwindow : s'.inWindow a = s.inWindow a := by rw [State.inWindow, State.inWindow, h.devices]
    rw [State.ramWord_busWrite, State.ramWord_busWrite, hwindow, h.visible b hb]

/-! ## Operands -/

protected theorem Alike.resolve {s s' : State} (h : Alike s s') (op : Operand) :
    (resolve op s').1 = (resolve op s).1 ∧ Alike (resolve op s).2 (resolve op s').2 := by
  refine ⟨resolve_location_congr op h.regs h.sp, ?_⟩
  rw [resolve_state, resolve_state]
  exact h.update (fun t => { t with pc := t.pc + extraCount op, sp := t.sp + spMove op }) (fun _ => rfl)
    (fun _ _ => rfl)

protected theorem Alike.readLoc {s s' : State} (h : Alike s s') (l : Location) :
    (readLoc l s').1 = (readLoc l s).1 ∧ Alike (readLoc l s).2 (readLoc l s').2 := by
  cases l with
  | mem a => exact h.busRead a
  | reg r => exact ⟨congrArg (Regs.get · r) h.regs, h⟩
  | sp => exact ⟨h.sp, h⟩
  | pc => exact ⟨h.pc, h⟩
  | o => exact ⟨h.o, h⟩
  | lit => exact ⟨rfl, h⟩

theorem Alike.setPc {s s' : State} (h : Alike s s') (v : Word) : Alike (s.setPc v) (s'.setPc v) :=
  h.update (State.setPc · v) (fun _ => rfl) (fun _ _ => rfl)

theorem Alike.setSp {s s' : State} (h : Alike s s') (v : Word) : Alike (s.setSp v) (s'.setSp v) :=
  h.update (State.setSp · v) (fun _ => rfl) (fun _ _ => rfl)

theorem Alike.setSkip {s s' : State} (h : Alike s s') (v : Bool) : Alike (s.setSkip v) (s'.setSkip v) :=
  h.update (State.setSkip · v) (fun _ => rfl) (fun _ _ => rfl)

theorem Alike.emit {s s' : State} (h : Alike s s') (es : List Output) : Alike (s.emit es) (s'.emit es) :=
  h.update (State.emit · es) (fun _ => rfl) (fun _ _ => rfl)

protected theorem Alike.writeLoc {s s' : State} (h : Alike s s') (l : Location) (v : Word) :
    Alike (writeLoc l v s) (writeLoc l v s') := by
  cases l with
  | mem a => exact h.busWrite a v
  | reg r => exact h.update (State.setReg · r v) (fun _ => rfl) (fun _ _ => rfl)
  | sp => exact h.setSp v
  | pc => exact h.setPc v
  | o => exact h.update (State.setO · v) (fun _ => rfl) (fun _ _ => rfl)
  | lit => exact h

protected theorem Alike.resolveBoth {s s' : State} (h : Alike s s') (a b : Operand) :
    (resolveBoth a b s').1 = (resolveBoth a b s).1 ∧ (resolveBoth a b s').2.1 = (resolveBoth a b s).2.1 ∧
      Alike (resolveBoth a b s).2.2 (resolveBoth a b s').2.2 := by
  obtain ⟨hdest, ha⟩ := (h.pc ▸ h.setPc (s.pc + 1#16) :
    Alike (s.setPc (s.pc + 1#16)) (s'.setPc (s'.pc + 1#16))).resolve a
  obtain ⟨hsource, hb⟩ := ha.resolve b
  exact ⟨hdest, hsource, hb⟩

protected theorem Alike.readBoth {s s' : State} (h : Alike s s') (a b : Operand) :
    (readBoth a b s').dest = (readBoth a b s).dest ∧ (readBoth a b s').va = (readBoth a b s).va ∧
      (readBoth a b s').vb = (readBoth a b s).vb ∧ Alike (readBoth a b s).st (readBoth a b s').st := by
  obtain ⟨hdest, hsource, hboth⟩ := h.resolveBoth a b
  obtain ⟨hva, ha⟩ := hboth.readLoc (resolveBoth a b s).1
  obtain ⟨hvb, hb⟩ := ha.readLoc (resolveBoth a b s).2.1
  simp only [readBoth, hdest, hsource]
  exact ⟨trivial, hva, hvb, hb⟩

protected theorem Alike.readSource {s s' : State} (h : Alike s s') (a b : Operand) :
    (readSource a b s').dest = (readSource a b s).dest ∧ (readSource a b s').vb = (readSource a b s).vb ∧
      Alike (readSource a b s).st (readSource a b s').st := by
  obtain ⟨hdest, hsource, hboth⟩ := h.resolveBoth a b
  obtain ⟨hvb, hb⟩ := hboth.readLoc (resolveBoth a b s).2.1
  simp only [readSource, hdest, hsource]
  exact ⟨trivial, hvb, hb⟩

protected theorem Alike.readOperand {s s' : State} (h : Alike s s') (a : Operand) :
    (readOperand a s').1 = (readOperand a s).1 ∧ Alike (readOperand a s).2 (readOperand a s').2 := by
  obtain ⟨hloc, ha⟩ := (h.pc ▸ h.setPc (s.pc + 1#16) :
    Alike (s.setPc (s.pc + 1#16)) (s'.setPc (s'.pc + 1#16))).resolve a
  simp only [readOperand, hloc]
  exact ha.readLoc _

/-! ## Instructions -/

/-- Two runs of one step end alike: both in a next state or both in the same failure, at alike states. -/
inductive AlikeOutcome : Host.Outcome State Fault Refusal → Host.Outcome State Fault Refusal → Prop
  | next {t t' : State} (h : Alike t t') : AlikeOutcome (.next t) (.next t')
  | raised {t t' : State} (xop : Field6) (h : Alike t t') :
      AlikeOutcome (.fault (.illegalOpcode xop t)) (.fault (.illegalOpcode xop t'))

section
variable {s s' : State}

protected theorem Alike.storeResult (h : Alike s s') (pc0 : Word) (l : Location) (v : Word) :
    Alike (storeResult pc0 l v s) (storeResult pc0 l v s') :=
  (h.writeLoc l v).emit _

protected theorem Alike.storeWithOverflow (h : Alike s s') (pc0 : Word) (l : Location) (v ov : Word) :
    Alike (storeWithOverflow pc0 l v ov s) (storeWithOverflow pc0 l v ov s') :=
  ((h.writeLoc l v).update (State.setO · ov) (fun _ => rfl) (fun _ _ => rfl)).emit _

protected theorem Alike.skipUnless (h : Alike s s') (pc0 : Word) (holds : Bool) :
    Alike (skipUnless pc0 holds s) (skipUnless pc0 holds s') := by
  cases holds with
  | true => exact h.emit _
  | false => exact (h.setSkip true).emit _

protected theorem Alike.execSet (h : Alike s s') (a b : Operand) : AlikeOutcome (execSet a b s) (execSet a b s') := by
  obtain ⟨hdest, hvb, hst⟩ := h.readSource a b
  simp only [execSet, hdest, hvb, h.pc]
  exact .next (hst.storeResult _ _ _)

/-- The instructions that store `f` of their two values: alike values give alike results. -/
theorem Alike.result (h : Alike s s') (a b : Operand) (f : Word → Word → Word) :
    AlikeOutcome
      (.next (storeResult s.pc (readBoth a b s).dest (f (readBoth a b s).va (readBoth a b s).vb) (readBoth a b s).st))
      (.next (storeResult s'.pc (readBoth a b s').dest (f (readBoth a b s').va (readBoth a b s').vb)
        (readBoth a b s').st)) := by
  obtain ⟨hdest, hva, hvb, hst⟩ := h.readBoth a b
  rw [hdest, hva, hvb, h.pc]
  exact .next (hst.storeResult _ _ _)

/-- The instructions that store `f` of their two values and `ov` of them in O. -/
theorem Alike.overflow (h : Alike s s') (a b : Operand) (f ov : Word → Word → Word) :
    AlikeOutcome
      (.next (storeWithOverflow s.pc (readBoth a b s).dest (f (readBoth a b s).va (readBoth a b s).vb)
        (ov (readBoth a b s).va (readBoth a b s).vb) (readBoth a b s).st))
      (.next (storeWithOverflow s'.pc (readBoth a b s').dest (f (readBoth a b s').va (readBoth a b s').vb)
        (ov (readBoth a b s').va (readBoth a b s').vb) (readBoth a b s').st)) := by
  obtain ⟨hdest, hva, hvb, hst⟩ := h.readBoth a b
  rw [hdest, hva, hvb, h.pc]
  exact .next (hst.storeWithOverflow _ _ _ _)

/-- The conditionals, with the test `f` of their two values. -/
theorem Alike.compared (h : Alike s s') (a b : Operand) (f : Word → Word → Bool) :
    AlikeOutcome
      (.next (skipUnless s.pc (f (readBoth a b s).va (readBoth a b s).vb) (readBoth a b s).st))
      (.next (skipUnless s'.pc (f (readBoth a b s').va (readBoth a b s').vb) (readBoth a b s').st)) := by
  obtain ⟨-, hva, hvb, hst⟩ := h.readBoth a b
  rw [hva, hvb, h.pc]
  exact .next (hst.skipUnless _ _)

protected theorem Alike.pushWord (h : Alike s s') (v : Word) : Alike (pushWord v s) (pushWord v s') := by
  simp only [pushWord, h.sp]
  exact (h.setSp _).busWrite _ _

protected theorem Alike.execJsr (h : Alike s s') (a : Operand) : AlikeOutcome (execJsr a s) (execJsr a s') := by
  obtain ⟨hvalue, hst⟩ := h.readOperand a
  simp only [execJsr, hvalue, hst.pc, hst.sp, h.pc]
  exact .next (((hst.pushWord _).setPc _).emit _)

/-- Alike states execute an instruction alike (R61). -/
protected theorem Alike.exec (h : Alike s s') (i : Instr) : AlikeOutcome (exec i s) (exec i s') := by
  cases i with
  | set a b => exact h.execSet a b
  | add a b => exact h.overflow a b addResult addOverflow
  | sub a b => exact h.overflow a b subResult subOverflow
  | mul a b => exact h.overflow a b mulResult mulOverflow
  | div a b => exact h.overflow a b divResult divOverflow
  | mod a b => exact h.result a b modResult
  | shl a b => exact h.overflow a b shlResult shlOverflow
  | shr a b => exact h.overflow a b shrResult shrOverflow
  | and a b => exact h.result a b (· &&& ·)
  | bor a b => exact h.result a b (· ||| ·)
  | xor a b => exact h.result a b (· ^^^ ·)
  | ife a b => exact h.compared a b equalHolds
  | ifn a b => exact h.compared a b differHolds
  | ifg a b => exact h.compared a b greaterHolds
  | ifb a b => exact h.compared a b commonBitHolds
  | jsr a => exact h.execJsr a
  | unk xop f => exact .raised xop h

/-! ## The step -/

theorem Alike.beginStep (h : Alike s s') : Alike s.beginStep s'.beginStep :=
  h.update State.beginStep (fun _ => rfl) (fun _ _ => rfl)

protected theorem Alike.readIf (h : Alike s s') (wanted : Bool) (a : Word) :
    (readIf wanted a s').1 = (readIf wanted a s).1 ∧ Alike (readIf wanted a s).2 (readIf wanted a s').2 := by
  cases wanted with
  | true => exact h.busRead a
  | false => exact ⟨rfl, h⟩

protected theorem Alike.fetchExtra (h : Alike s s') (w : Word) :
    (fetchExtra w s').instr = (fetchExtra w s).instr ∧ Alike (fetchExtra w s).st (fetchExtra w s').st := by
  obtain ⟨hextra1, h1⟩ := h.readIf (decide (1 ≤ wordsToRead w)) (s.pc + 1#16)
  obtain ⟨hextra2, h2⟩ := h1.readIf (decide (2 ≤ wordsToRead w)) (s.pc + 2#16)
  simp only [Fetched.instr, fetchExtra, h.pc, hextra1, hextra2]
  exact ⟨trivial, h2⟩

theorem Alike.firstRead (h : Alike s s') :
    (s'.beginStep.busRead s'.pc).1 = (s.beginStep.busRead s.pc).1 ∧
      Alike (s.beginStep.busRead s.pc).2 (s'.beginStep.busRead s'.pc).2 := by
  rw [h.pc]
  exact h.beginStep.busRead s.pc

theorem Alike.fetched (h : Alike s s') :
    s'.fetched.instr = s.fetched.instr ∧ Alike s.fetched.st s'.fetched.st := by
  obtain ⟨hword, hst⟩ := h.firstRead
  simp only [State.fetched, hword]
  exact hst.fetchExtra _

protected theorem Alike.skipOver (h : Alike s s') (w : Word) : Alike (skipOver w s) (skipOver w s') := by
  simp only [skipOver, h.pc, h.params]
  exact ((h.setPc _).setSkip _).emit _

end

/-- A skip step passes over one word's instruction (R152). -/
theorem step_of_skip {s : State} (h : s.skip = true) :
    step s = .next (skipOver (s.beginStep.busRead s.pc).1 (s.beginStep.busRead s.pc).2) := by
  rw [step, h]
  rfl

/-- A normal step executes what it fetched (R154). -/
theorem step_of_not_skip {s : State} (h : s.skip = false) : step s = exec s.fetched.instr s.fetched.st := by
  rw [step, h]
  rfl

/-- Alike states take the same step (R61). -/
protected theorem Alike.step {s s' : State} (h : Alike s s') : AlikeOutcome (step s) (step s') := by
  cases hs : s.skip with
  | true =>
    obtain ⟨hword, hst⟩ := h.firstRead
    rw [step_of_skip hs, step_of_skip (h.skip.trans hs), hword]
    exact .next (hst.skipOver _)
  | false =>
    obtain ⟨hinstr, hst⟩ := h.fetched
    rw [step_of_not_skip hs, step_of_not_skip (h.skip.trans hs), hinstr]
    exact hst.exec _

theorem State.fetched_ram (s : State) : s.fetched.st.ram = s.ram := by
  rw [State.fetched, fetchExtra_state]
  rfl

/-- A step that raises has written nothing (R232). -/
theorem step_fault_ram {s t : State} {xop : Field6} (h : step s = .fault (.illegalOpcode xop t)) :
    t.ram = s.ram := by
  obtain ⟨-, _, _, -, hleft⟩ := step_fault h
  injection hleft with _ hleft
  rw [hleft, s.fetched_ram]

/-- Where one of two alike states raises, the other raises the same, its own RAM kept. -/
protected theorem Alike.step_fault {s s' t : State} {xop : Field6} (h : Alike s s')
    (hstep : step s = .fault (.illegalOpcode xop t)) :
    step s' = .fault (.illegalOpcode xop { t with ram := s'.ram }) := by
  have hsame := h.step
  rw [hstep] at hsame
  generalize hstep' : step s' = outcome at hsame
  cases hsame with
  | raised _ ht => rw [ht.rest, step_fault_ram hstep']

/-- Settles O50: every part of a step takes alike states to alike ones, and no bus access changes a RAM word under a
window. -/
theorem shadowedRamIsInvisible : Obligations.ShadowedRamIsInvisible := by
  intro s ram hvisible
  have h : Alike s { s with ram := ram } := ⟨rfl, hvisible⟩
  refine ⟨fun xop t => ⟨fun hstep => ⟨step_fault_ram hstep, h.step_fault hstep⟩, fun ⟨hram, hstep⟩ => ?_⟩,
    fun t hstep => ⟨fun a => (step_busRun (.inl hstep)).ramWord_of_inWindow, ?_⟩⟩
  · rw [h.symm.step_fault hstep, ← hram]
  · have hsame := h.step
    rw [hstep] at hsame
    generalize step { s with ram := ram } = outcome at hsame
    cases hsame with
    | next ht =>
      have hwiring := (step_busRun (.inl hstep)).wiring
      exact ⟨_, rfl, ht.rest, fun a ha => ht.visible a ((State.inWindow_of_wiring hwiring a).trans ha)⟩

end Sys2Proof.Machine
end

section
/-! SUPPORT. One bus access, by where its address lies (O10, O11, O12, O53, O54). -/

namespace Sys2Proof.Machine

/-! ## Windows and addresses -/

theorem Installation.covers_iff (m : Installation) (a : Nat) :
    m.covers a = true ↔ m.base ≤ a ∧ a < m.base + m.device.size := by
  simp [Installation.covers]

theorem any_covers_eq_false {ds : List Installation} {a : Nat}
    (h : ∀ m ∈ ds, ¬(m.base ≤ a ∧ a < m.base + m.device.size)) : ds.any (fun m => m.covers a) = false := by
  simpa [Installation.covers] using h

/-- A number below 2^16 is the value of its word. -/
theorem toNat_word {n : Nat} (h : n < 65536) : (word n).toNat = n := by
  rw [BitVec.toNat_ofNat, Nat.mod_eq_of_lt h]

/-! ## An access outside every window -/

section
variable {s : State} {a : Word}

theorem State.busRead_outside (h : s.inWindow a = false) :
    s.busRead a = (s.ramWord a, { s with bus := s.bus ++ [.read a (s.ramWord a)] }) := by
  rw [State.busRead, routeRead_outside h]
  rfl

theorem State.busWrite_outside (h : s.inWindow a = false) (v : Word) :
    s.busWrite a v =
      { s with ram := Memory.put Config.ramCapacity s.ram a.toNat v, bus := s.bus ++ [.write a v] } := by
  rw [State.busWrite, routeWrite_outside h, List.append_nil]

/-- A write to the RAM shows at its own address only, in a read of the RAM or of a window (R51, R52, R71). -/
theorem State.peek_busWrite_outside (h : s.inWindow a = false) (v b : Word) :
    (s.busWrite a v).peek b = if b = a then v else s.peek b := by
  have hwindow : (s.busWrite a v).inWindow b = s.inWindow b := State.inWindow_of_wiring (s.busWrite_wiring a v) b
  cases hb : s.inWindow b with
  | true =>
    have hne : b ≠ a := by rintro rfl; simp [h] at hb
    rw [if_neg hne, State.peek, State.peek, State.busRead_value, State.busRead_value, State.busWrite_devices,
      routeWrite_outside h, routeRead_inside hb]
  | false =>
    rw [State.peek, State.peek, State.busRead_outside (hwindow.trans hb), State.busRead_outside hb,
      State.ramWord_busWrite]
    simp [h]

end

/-! ## An access to the first window that holds its address -/

section
variable {s : State} {pre post : List Installation} {m : Installation} {a : Word}

theorem State.busRead_first (hdev : s.devices = pre ++ m :: post)
    (hpre : pre.any (fun n => n.covers a.toNat) = false) (hm : m.covers a.toNat = true) :
    s.busRead a = ((m.device.get m.name m.base (a.toNat - m.base)).1,
      { s with
        devices := pre ++ { m with device := (m.device.get m.name m.base (a.toNat - m.base)).2 } :: post
        bus := s.bus ++ [.read a (m.device.get m.name m.base (a.toNat - m.base)).1] }) := by
  rw [State.busRead, hdev, routeRead_first hpre hm]

theorem State.busWrite_first (hdev : s.devices = pre ++ m :: post)
    (hpre : pre.any (fun n => n.covers a.toNat) = false) (hm : m.covers a.toNat = true) (v : Word) :
    s.busWrite a v = { s with
      devices := pre ++ { m with device := (m.device.put m.name m.base (a.toNat - m.base) v).1 } :: post
      outputs := s.outputs ++ (m.device.put m.name m.base (a.toNat - m.base) v).2
      bus := s.bus ++ [.write a v] } := by
  rw [State.busWrite, hdev, routeWrite_first hpre hm]

end

/-! ## An access at an offset of a window -/

section
variable {s : State} {pre post : List Installation} {base offset : Nat} {name : String} {d : Device}

theorem covers_offset (hoff : offset < d.size) (hend : base + d.size ≤ 65536) :
    (word (base + offset)).toNat = base + offset ∧
      Installation.covers { base := base, name := name, device := d } (base + offset) = true :=
  ⟨toNat_word (by omega), (Installation.covers_iff _ _).mpr ⟨Nat.le_add_right _ _, Nat.add_lt_add_left hoff base⟩⟩

theorem State.busRead_offset (hdev : s.devices = pre ++ { base := base, name := name, device := d } :: post)
    (hpre : ∀ n ∈ pre, n.covers (base + offset) = false) (hoff : offset < d.size) (hend : base + d.size ≤ 65536) :
    s.busRead (word (base + offset)) = ((d.get name base offset).1,
      { s with
        devices := pre ++ { base := base, name := name, device := (d.get name base offset).2 } :: post
        bus := s.bus ++ [.read (word (base + offset)) (d.get name base offset).1] }) := by
  obtain ⟨haddr, hcovers⟩ := covers_offset (name := name) hoff hend
  rw [State.busRead_first hdev (by simpa [haddr] using hpre) (by rwa [haddr])]
  simp only [haddr, Nat.add_sub_cancel_left]

theorem State.busWrite_offset (hdev : s.devices = pre ++ { base := base, name := name, device := d } :: post)
    (hpre : ∀ n ∈ pre, n.covers (base + offset) = false) (hoff : offset < d.size) (hend : base + d.size ≤ 65536)
    (v : Word) :
    s.busWrite (word (base + offset)) v = { s with
      devices := pre ++ { base := base, name := name, device := (d.put name base offset v).1 } :: post
      outputs := s.outputs ++ (d.put name base offset v).2
      bus := s.bus ++ [.write (word (base + offset)) v] } := by
  obtain ⟨haddr, hcovers⟩ := covers_offset (name := name) hoff hend
  rw [State.busWrite_first hdev (by simpa [haddr] using hpre) (by rwa [haddr])]
  simp only [haddr, Nat.add_sub_cancel_left]

end

/-- Whether an address's word changes with the device behind one window: only where that device answers, and answers
otherwise (R58). -/
theorem routeRead_value_congr {ram : Memory} {pre post : List Installation} {m m' : Installation} {a : Nat}
    (hcovers : m'.covers = m.covers)
    (hget : m.covers a = true →
      (m'.device.get m'.name m'.base (a - m'.base)).1 = (m.device.get m.name m.base (a - m.base)).1) :
    (routeRead ram (pre ++ m' :: post) a).1 = (routeRead ram (pre ++ m :: post) a).1 := by
  induction pre with
  | nil =>
    simp only [List.nil_append, routeRead, hcovers]
    split
    · rename_i hm
      exact hget hm
    · rfl
  | cons n ns ih =>
    simp only [List.cons_append, routeRead]
    split
    · rfl
    · exact ih

/-! ## The statements -/

/-- Settles O10: the write goes to the RAM, which alone a read outside the windows sees. -/
theorem busReadAfterWrite : Obligations.BusReadAfterWrite :=
  fun _ _ v b h => ⟨State.peek_busWrite_outside h v b, by rw [State.busWrite_outside h]⟩

/-- Settles O11: no window, or the first one, holds the address. -/
theorem readRouting : Obligations.ReadRouting := by
  refine fun s a => ⟨fun hnone => ?_, fun pre m post hdev hpre hlow hhigh => ?_⟩
  · have hout : s.inWindow a = false := any_covers_eq_false hnone
    rw [State.busRead_outside hout]
    exact ⟨rfl, rfl⟩
  · rw [State.busRead_first hdev (any_covers_eq_false hpre) ((m.covers_iff _).mpr ⟨hlow, hhigh⟩)]
    exact ⟨rfl, rfl⟩

/-- Settles O12: no window, or the first one, holds the address. -/
theorem writeRouting : Obligations.WriteRouting := by
  refine fun s a v => ⟨fun hnone => ?_, fun pre m post hdev hpre hlow hhigh => ?_⟩
  · have hout : s.inWindow a = false := any_covers_eq_false hnone
    refine ⟨by rw [State.busWrite_outside hout], by rw [State.busWrite_outside hout], fun b => ?_⟩
    simp [State.ramWord_busWrite, hout]
  · rw [State.busWrite_first hdev (any_covers_eq_false hpre) ((m.covers_iff _).mpr ⟨hlow, hhigh⟩)]
    exact ⟨rfl, rfl, fun _ => rfl⟩

/-- Settles O53: two addresses of the window share a word of the store only if they are equal. -/
theorem storingWindow : Obligations.StoringWindow := by
  intro s pre post base size offset name cells v hdev hpre hoff hend a t
  have ha : a.toNat = base + offset := toNat_word (by omega)
  have ht := State.busWrite_offset hdev hpre hoff hend v
  have htdev : t.devices =
      pre ++ { base := base, name := name, device := .storing size (Memory.put size cells offset v) } :: post :=
    congrArg State.devices ht
  have hram : t.ram = s.ram := (congrArg State.ram ht :)
  refine ⟨fun b => ?_, hram, (congrArg State.outputs ht).trans (List.append_nil _), ?_⟩
  · split
    · next hb =>
      rw [hb, State.peek, State.busRead_offset htdev hpre hoff hend]
      simp [Device.get, Memory.get_put]
    · next hb =>
      have hne : b.toNat ≠ base + offset := fun h => hb (BitVec.eq_of_toNat_eq (h.trans ha.symm))
      rw [State.peek, State.peek, State.busRead_value, State.busRead_value, htdev, hdev, hram]
      refine routeRead_value_congr rfl fun hcovers => ?_
      obtain ⟨hlow, hhigh⟩ : base ≤ b.toNat ∧ b.toNat < base + size := (Installation.covers_iff _ _).mp hcovers
      have hother : (b.toNat - base) % size ≠ offset % size := by
        rw [Nat.mod_eq_of_lt (by omega), Nat.mod_eq_of_lt hoff]
        omega
      simp only [Device.get, Memory.get_put, if_neg hother]
  · rw [State.busRead_offset hdev hpre hoff hend, hdev]
    rfl

/-- Settles O54: the device's own `get` and `put` answer an access at an offset of its window. -/
theorem undescribedDevice : Obligations.UndescribedDevice := by
  intro s pre post base size offset name history v hdev hpre hoff hend a seen
  rw [State.busRead_offset hdev hpre hoff hend, State.busWrite_offset hdev hpre hoff hend]
  exact ⟨rfl, rfl, rfl, rfl, rfl⟩

end Sys2Proof.Machine
end

section
/-! SUPPORT. The host's and the environment's moves (O16, O51, O48): what each leaves, and that each keeps the
invariant. -/

namespace Sys2Proof.Machine

/-! ## Installing a window -/

/-- Windows that hold a word overlap exactly if they share an address (R57). -/
theorem Installation.overlaps_iff {m n : Installation} (hm : 1 ≤ m.device.size) (hn : 1 ≤ n.device.size) :
    m.overlaps n = true ↔ ∃ a, m.covers a = true ∧ n.covers a = true := by
  simp only [Installation.overlaps, Bool.and_eq_true, decide_eq_true_eq, Installation.covers_iff]
  constructor
  · intro h
    exact ⟨max m.base n.base, by omega⟩
  · rintro ⟨a, h⟩
    omega

/-- When `install` succeeds, and with what (R45, R57, R264, R265). -/
theorem State.install_next_iff {s t : State} {name : String} {base : Nat} {k : DeviceKind} :
    let m : Installation := { base := base, name := name, device := k.fresh }
    s.install name base k = .next t ↔
      s.phase = .wiring ∧ 1 ≤ m.device.size ∧ base + m.device.size ≤ 65536 ∧
        (∀ n ∈ s.devices, n.overlaps m = false) ∧ t = { s with devices := s.devices ++ [m] } := by
  intro m
  simp only [State.install]
  split
  · next h => exact ⟨nofun, fun ⟨hphase, _⟩ => absurd hphase h⟩
  next hphase =>
  split
  · next h => exact ⟨nofun, fun ⟨_, hsize, _⟩ => absurd h (Nat.pos_iff_ne_zero.mp hsize)⟩
  next hsize =>
  split
  · next h => exact ⟨nofun, fun ⟨_, _, hend, _⟩ => absurd h (Nat.not_lt.mpr hend)⟩
  next hend =>
  split
  · next h =>
    obtain ⟨n, hn, hover⟩ := List.any_eq_true.mp h
    exact ⟨nofun, fun ⟨_, _, _, hno, _⟩ => absurd hover (by simp [hno n hn, m])⟩
  next hover =>
  constructor
  · intro h
    injection h with h
    exact ⟨not_not.mp hphase, Nat.pos_of_ne_zero hsize, Nat.not_lt.mp hend, by simpa using hover, h.symm⟩
  · rintro ⟨-, -, -, -, rfl⟩
    rfl

/-- A window appended to a well-formed list keeps it so if it is well formed and overlaps none of the list (R57). -/
theorem windowsWf_append {ds : List Installation} {m : Installation} (hds : windowsWf ds = true) (hm : m.wf = true)
    (hno : ∀ n ∈ ds, n.overlaps m = false) : windowsWf (ds ++ [m]) = true := by
  induction ds with
  | nil => simp [windowsWf, hm]
  | cons n ns ih =>
    simp only [windowsWf, Bool.and_eq_true] at hds
    obtain ⟨⟨hn, hall⟩, hns⟩ := hds
    simp only [List.cons_append, windowsWf, Bool.and_eq_true, List.all_append]
    refine ⟨⟨hn, hall, ?_⟩, ih hns fun n' h => hno n' (List.mem_cons_of_mem _ h)⟩
    simp [hno n List.mem_cons_self]

theorem DeviceKind.fresh_wf (k : DeviceKind) : k.fresh.wf = true := by
  cases k <;> simp [DeviceKind.fresh, Device.wf, Memory.wf_nil]

/-- A window of a well-formed list holds a word, and its device is in form (R50, R57, R249). -/
theorem size_pos_and_wf_of_windowsWf {ds : List Installation} (h : windowsWf ds = true) {m : Installation}
    (hm : m ∈ ds) : 1 ≤ m.device.size ∧ m.device.wf = true := by
  induction ds with
  | nil => cases hm
  | cons n ns ih =>
    simp only [windowsWf, Installation.wf, Bool.and_eq_true, decide_eq_true_eq] at h
    obtain ⟨⟨⟨⟨hsize, -⟩, hwf⟩, -⟩, hns⟩ := h
    rcases List.mem_cons.mp hm with rfl | hm
    · exact ⟨hsize, hwf⟩
    · exact ih hns hm

/-- An install that succeeds keeps the invariant (R57, R264). -/
theorem State.install_wf {s t : State} {name : String} {base : Nat} {k : DeviceKind} (hs : s.wf = true)
    (h : s.install name base k = .next t) : t.wf = true := by
  obtain ⟨-, hsize, hend, hno, rfl⟩ := State.install_next_iff.mp h
  simp only [State.wf, Bool.and_eq_true] at hs ⊢
  obtain ⟨hram, hwindows⟩ := hs
  refine ⟨hram, windowsWf_append hwindows ?_ hno⟩
  simp only [Installation.wf, Bool.and_eq_true, decide_eq_true_eq]
  exact ⟨⟨hsize, hend⟩, k.fresh_wf⟩

/-! ## The environment -/

/-- A changed list is the list with one device replaced by what the change made of it. -/
theorem changeDevice_some {f : Device → Option Device} {ds es : List Installation} {n : Nat}
    (h : changeDevice f ds n = some es) :
    ∃ m d, ds[n]? = some m ∧ f m.device = some d ∧ es = ds.set n { m with device := d } := by
  induction ds generalizing n es with
  | nil => cases h
  | cons m ms ih =>
    cases n with
    | zero =>
      obtain ⟨d, hd, rfl⟩ := Option.map_eq_some_iff.mp h
      exact ⟨m, d, rfl, hd, rfl⟩
    | succ n =>
      obtain ⟨es', hes, rfl⟩ := Option.map_eq_some_iff.mp h
      obtain ⟨m', d, hm', hd, rfl⟩ := ih hes
      exact ⟨m', d, hm', hd, rfl⟩

/-- An act of the environment replaces one device, and does nothing else (R78, R251). -/
theorem State.environment_next {s t : State} {f : Device → Option Device} {n : Nat}
    (h : s.environment f n = .next t) :
    ∃ m d, s.devices[n]? = some m ∧ f m.device = some d ∧
      t = { s with devices := s.devices.set n { m with device := d } } := by
  simp only [State.environment] at h
  split at h
  · next es hes =>
    injection h with h
    obtain ⟨m, d, hm, hd, rfl⟩ := changeDevice_some hes
    exact ⟨m, d, hm, hd, h.symm⟩
  · cases h

/-- What an act may make of a device: a device of the same kind, in form if the device was (R249, R251). -/
structure KeepsForm (f : Device → Option Device) : Prop where
  kind : ∀ {d e}, f d = some e → e.kind = d.kind
  wf : ∀ {d e}, f d = some e → d.wf = true → e.wf = true

/-- A key goes into a buffer with room for it, or is dropped (R249). -/
theorem key_keepsForm (code : Word) : KeepsForm (Device.key code) where
  kind {d e} h := by
    cases d with
    | keyboard => injection h with h; rw [← h]; rfl
    | storing | display | undescribed => cases h
  wf {d e} h hd := by
    cases d with
    | keyboard depth fifo =>
      injection h with h
      subst h
      simp only [Device.wf, decide_eq_true_eq] at hd ⊢
      split
      · rw [List.length_append, List.length_singleton]
        omega
      · exact hd
    | storing | display | undescribed => cases h

theorem act_keepsForm (code : Nat) : KeepsForm (Device.act code) where
  kind {d e} h := by
    cases d with
    | undescribed => injection h with h; rw [← h]; rfl
    | storing | display | keyboard => cases h
  wf {d e} h _ := by
    cases d with
    | undescribed => injection h with h; rw [← h]; rfl
    | storing | display | keyboard => cases h

/-- A device replaced by one of its kind leaves the wiring (R38). -/
theorem wiring_set {ds : List Installation} {n : Nat} {m : Installation} {d : Device} (hm : ds[n]? = some m)
    (hd : d.kind = m.device.kind) :
    (ds.set n { m with device := d }).map Installation.wiring = ds.map Installation.wiring := by
  have hsame : Installation.wiring { m with device := d } = m.wiring := by simp [Installation.wiring, hd]
  obtain ⟨hn, rfl⟩ := List.getElem?_eq_some_iff.mp hm
  have hn' : n < (ds.map Installation.wiring).length := by rwa [List.length_map]
  calc (ds.set n { ds[n] with device := d }).map Installation.wiring
      = (ds.map Installation.wiring).set n ds[n].wiring := by rw [List.map_set, hsame]
    _ = (ds.map Installation.wiring).set n (ds.map Installation.wiring)[n] := by rw [List.getElem_map]
    _ = ds.map Installation.wiring := List.set_getElem_self hn'

/-- Lists of one wiring are well formed together if every device is in form. -/
theorem windowsWf_of_wiring {ds es : List Installation}
    (h : es.map Installation.wiring = ds.map Installation.wiring) (hds : windowsWf ds = true)
    (hes : ∀ m ∈ es, m.device.wf = true) : windowsWf es = true := by
  induction ds generalizing es with
  | nil => cases es <;> simp_all [windowsWf]
  | cons m ms ih =>
    cases es with
    | nil => rfl
    | cons n ns =>
      simp only [List.map_cons, List.cons.injEq] at h
      obtain ⟨hn, hns⟩ := h
      simp only [windowsWf, Installation.wf, Bool.and_eq_true, decide_eq_true_eq] at hds ⊢
      obtain ⟨⟨⟨⟨hsize, hend⟩, -⟩, hall⟩, hms⟩ := hds
      obtain ⟨hbase, -, hkind⟩ : n.base = m.base ∧ n.name = m.name ∧ n.device.kind = m.device.kind := by
        simpa [Installation.wiring] using hn
      rw [Device.size_of_kind hkind, hbase, all_overlaps_of_wiring hn hns]
      exact ⟨⟨⟨⟨hsize, hend⟩, hes n List.mem_cons_self⟩, hall⟩,
        ih hns hms fun m' h => hes m' (List.mem_cons_of_mem _ h)⟩

theorem State.environment_wiring {s t : State} {f : Device → Option Device} {n : Nat} (hf : KeepsForm f)
    (h : s.environment f n = .next t) :
    t.devices.map Installation.wiring = s.devices.map Installation.wiring := by
  obtain ⟨m, d, hm, hd, rfl⟩ := State.environment_next h
  exact wiring_set hm (hf.kind hd)

/-- The environment keeps the invariant (R249, R251). -/
theorem State.environment_wf {s t : State} {f : Device → Option Device} {n : Nat} (hf : KeepsForm f)
    (hs : s.wf = true) (h : s.environment f n = .next t) : t.wf = true := by
  have hwiring := State.environment_wiring hf h
  obtain ⟨m, d, hm, hd, rfl⟩ := State.environment_next h
  simp only [State.wf, Bool.and_eq_true] at hs ⊢
  obtain ⟨hram, hwindows⟩ := hs
  refine ⟨hram, windowsWf_of_wiring hwiring hwindows fun m' hm' => ?_⟩
  rcases List.mem_or_eq_of_mem_set hm' with hm' | rfl
  · exact (size_pos_and_wf_of_windowsWf hwindows hm').2
  · exact hf.wf hd (size_pos_and_wf_of_windowsWf hwindows (List.mem_of_getElem? hm)).2

/-! ## Loading -/

theorem loadWords_busRun (offset : Word) (image : List Word) (s : State) : BusRun s (loadWords offset image s) := by
  induction image generalizing offset s with
  | nil => exact .refl
  | cons v vs ih => exact (BusRun.write offset v .refl).trans (ih _ _)

/-- A load that succeeds is a run of bus writes (R266). -/
theorem State.load_busRun {s t : State} {offset : Word} {image : List Word} (h : s.load offset image = .next t) :
    BusRun s t := by
  simp only [State.load] at h
  split at h
  · cases h
  · split at h
    · cases h
    · split at h
      · cases h
      · injection h with h
        exact h ▸ (loadWords_busRun offset image s).core rfl rfl

/-! ## The statements -/

/-- Settles O16: a window that passes the four checks of `install` is a well-formed one beside the others. -/
theorem installAdmitsWellFormed : Obligations.InstallAdmitsWellFormed := by
  intro s name base k hs m
  have hwindows : windowsWf s.devices = true := by
    simp only [State.wf, Bool.and_eq_true] at hs
    exact hs.2
  have hshare : 1 ≤ m.device.size → ∀ n ∈ s.devices,
      (n.overlaps m = false ↔ ∀ a, ¬(n.covers a = true ∧ m.covers a = true)) := fun hm n hn => by
    rw [← not_exists, ← Installation.overlaps_iff (size_pos_and_wf_of_windowsWf hwindows hn).1 hm, Bool.not_eq_true]
  refine ⟨⟨fun ⟨t, h⟩ => ?_, fun ⟨hphase, hsize, hend, hno⟩ => ?_⟩, fun t h => ⟨?_, State.install_wf hs h⟩⟩
  · obtain ⟨hphase, hsize, hend, hno, -⟩ := State.install_next_iff.mp h
    exact ⟨hphase, hsize, hend, fun n hn => (hshare hsize n hn).mp (hno n hn)⟩
  · exact ⟨_, State.install_next_iff.mpr
      ⟨hphase, hsize, hend, fun n hn => (hshare hsize n hn).mpr (hno n hn), rfl⟩⟩
  · obtain ⟨-, -, -, -, rfl⟩ := State.install_next_iff.mp h
    rfl

/-- Settles O51: both acts replace one device by one of its kind. -/
theorem environmentChangesDevicesOnly : Obligations.EnvironmentChangesDevicesOnly := by
  intro s t n code key h
  obtain ⟨f, hf, h⟩ : ∃ f, KeepsForm f ∧ s.environment f n = .next t :=
    h.elim (fun h => ⟨_, key_keepsForm key, h⟩) (fun h => ⟨_, act_keepsForm code, h⟩)
  have hwiring := State.environment_wiring hf h
  obtain ⟨m, d, -, -, rfl⟩ := State.environment_next h
  exact ⟨rfl, hwiring, fun k hk => List.getElem?_set_ne hk.symm⟩

/-- Settles O48: by induction on how the state was reached; every move keeps the invariant. -/
theorem reachableIsWellFormed : Obligations.ReachableIsWellFormed := by
  intro s h
  induction h with
  | reset p => exact resetIsWellFormed.2 p
  | resetPort _ _ => exact resetIsWellFormed.2 _
  | install name base k _ h ih => exact State.install_wf ih h
  | load offset image _ h ih => exact (State.load_busRun h).wf ih
  | outsideGet a _ ih => exact State.busRead_wf ih
  | pressKey n code _ h ih => exact State.environment_wf (key_keepsForm code) ih h
  | environmentAct n code _ h ih => exact State.environment_wf (act_keepsForm code) ih h
  | step _ h ih => exact (stepKeepsWellFormed _ _ ih).1 h
  | raised xop _ h ih => exact (stepKeepsWellFormed _ _ ih).2 xop h

end Sys2Proof.Machine
end

section
/-! SUPPORT. Instructions in the step (O46, O56): words in the RAM at PC are the instruction run, and what a stored
result sends out. -/

namespace Sys2Proof.Machine

/-! ## The words an instruction depends on -/

theorem extra_le_one (f : Field6) : extra f ≤ 1 := by
  unfold extra
  split <;> omega

/-- A field without an extra word names the same operand whatever word follows (R94). -/
theorem operandOf_congr {f : Field6} {w w' : Word} (h : extra f = 1 → w = w') : operandOf f w = operandOf f w' := by
  by_cases hf : extra f = 1
  · rw [h hf]
  · have hrange : ¬((0x10 ≤ f.toNat ∧ f.toNat ≤ 0x17) ∨ f.toNat = 0x1E ∨ f.toNat = 0x1F) := by
      simpa [extra] using hf
    unfold operandOf
    split
    case h_3 => omega
    case h_10 => omega
    case h_11 => simp only [imp_false] at *; omega
    all_goals rfl

/-- Opcode 0 is the extended format (R93). -/
theorem basicOf_zero (a b : Operand) : basicOf 0#4 a b = none := rfl

/-- A basic opcode has an instruction, so what to fall back on is no matter (R97). -/
theorem basicOf_getD {op : BitVec 4} (hop : op ≠ 0#4) (a b : Operand) (i i' : Instr) :
    (basicOf op a b).getD i = (basicOf op a b).getD i' := by
  have hpos : op.toNat ≠ 0 := fun h => hop (BitVec.eq_of_toNat_eq h)
  have hlt : op.toNat < 16 := op.isLt
  unfold basicOf
  split
  case h_16 => simp only [imp_false] at *; omega
  all_goals rfl

/-- An instruction depends on the words a normal step reads for it, and on no other (R96, R158). -/
theorem decodeWords_congr {w e1 e2 e1' e2' : Word} (h1 : 1 ≤ wordsToRead w → e1 = e1')
    (h2 : 2 ≤ wordsToRead w → e2 = e2') : decodeWords w e1 e2 = decodeWords w e1' e2' := by
  have hmid := extra_le_one (midField w)
  have htop := extra_le_one (topField w)
  cases hext : isExtended w with
  | true =>
    have hop : opField w = 0#4 := by simpa [isExtended] using hext
    simp only [decodeWords, hop, basicOf_zero, Option.getD_none, extendedOf]
    split
    · rfl
    · next hxop =>
      rw [operandOf_congr fun hx => h1 (by simp [wordsToRead, isIllegal, hext, hxop, extraWords, hx])]
  | false =>
    have hop : opField w ≠ 0#4 := by simpa [isExtended] using hext
    have hread : wordsToRead w = extra (midField w) + extra (topField w) := by
      simp [wordsToRead, isIllegal, hext, extraWords]
    have ha : operandOf (midField w) e1 = operandOf (midField w) e1' :=
      operandOf_congr fun hx => h1 (by omega)
    have hb : operandOf (topField w) (if extra (midField w) = 1 then e2 else e1) =
        operandOf (topField w) (if extra (midField w) = 1 then e2' else e1') := by
      refine operandOf_congr fun hx => ?_
      split
      · exact h2 (by omega)
      · exact h1 (by omega)
    simp only [decodeWords, ha, hb]
    exact basicOf_getD hop _ _ _ _

theorem wordsToRead_le_two (w : Word) : wordsToRead w ≤ 2 := by
  have hmid := extra_le_one (midField w)
  have htop := extra_le_one (topField w)
  have hextra : extraWords w ≤ 2 := by
    unfold extraWords
    split <;> omega
  unfold wordsToRead
  split <;> omega

/-- A table word always holds enough words, and decodes as its first three. -/
theorem decodeTableWord_eq (nbits w : Nat) :
    decodeTableWord nbits w = some (decodeWords (tableWord (w % 2 ^ nbits) 0) (tableWord (w % 2 ^ nbits) 1)
      (tableWord (w % 2 ^ nbits) 2)) := by
  have henough := wordsToRead_le_two (tableWord (w % 2 ^ nbits) 0)
  simp only [decodeTableWord, tableWords, decode]
  rw [if_neg (by simpa using henough)]
  rfl

/-! ## A fetch from the RAM -/

/-- What a normal step fetches changes devices, trace, outputs and phase at most (R154). -/
theorem State.fetched_state (s : State) :
    s.fetched.st = { s with
      devices := s.fetched.st.devices, bus := s.fetched.st.bus, outputs := [], phase := .running } := by
  rw [State.fetched, fetchExtra_state]
  rfl

/-- A wanted word outside the windows is the RAM's, and reading it leaves RAM and devices. -/
theorem readIf_outside {s : State} {a : Word} (h : s.inWindow a = false) (wanted : Bool) :
    (readIf wanted a s).1 = (if wanted then s.ramWord a else 0#16) ∧
      (readIf wanted a s).2 = { s with bus := (readIf wanted a s).2.bus } := by
  cases wanted with
  | true => simp [readIf, State.busRead_outside h]
  | false => exact ⟨rfl, rfl⟩

/-- With no window over the extra words, the instruction is that of the first word and the RAM's next two (R65). -/
theorem fetchExtra_instr_outside {s : State} (h1 : s.inWindow (s.pc + 1#16) = false)
    (h2 : s.inWindow (s.pc + 2#16) = false) (w : Word) :
    (fetchExtra w s).instr = decodeWords w (s.ramWord (s.pc + 1#16)) (s.ramWord (s.pc + 2#16)) := by
  obtain ⟨hextra1, hst⟩ := readIf_outside h1 (decide (1 ≤ wordsToRead w))
  have h2' : (readIf (decide (1 ≤ wordsToRead w)) (s.pc + 1#16) s).2.inWindow (s.pc + 2#16) = false := by
    rw [hst]; exact h2
  obtain ⟨hextra2, -⟩ := readIf_outside h2' (decide (2 ≤ wordsToRead w))
  refine decodeWords_congr (fun hread => ?_) (fun hread => ?_)
  · exact hextra1.trans (if_pos (decide_eq_true hread))
  · refine (hextra2.trans (if_pos (decide_eq_true hread))).trans ?_
    rw [hst]
    rfl

/-- With no window over the three words from PC on, the instruction fetched is that of the RAM's words (R65). -/
theorem State.fetched_instr_outside {s : State} (h0 : s.inWindow s.pc = false)
    (h1 : s.inWindow (s.pc + 1#16) = false) (h2 : s.inWindow (s.pc + 2#16) = false) :
    s.fetched.instr =
      decodeWords (s.ramWord s.pc) (s.ramWord (s.pc + 1#16)) (s.ramWord (s.pc + 2#16)) := by
  have hfirst : s.beginStep.busRead s.pc =
      (s.ramWord s.pc, { s.beginStep with bus := [.read s.pc (s.ramWord s.pc)] }) := State.busRead_outside h0
  rw [State.fetched, hfirst]
  exact fetchExtra_instr_outside (s := { s.beginStep with bus := [.read s.pc (s.ramWord s.pc)] }) h1 h2 _

/-! ## A word put at PC -/

theorem State.ramWord_setRam (s : State) (a v b : Word) :
    (s.setRam a v).ramWord b = if b = a then v else s.ramWord b := by
  have hlt : ∀ x : Word, x.toNat % Config.ramCapacity = x.toNat := fun x => Nat.mod_eq_of_lt x.isLt
  simp only [State.ramWord, State.setRam_ram, Memory.get_put, hlt, BitVec.toNat_inj]

section
variable (s : State) (nbits w : Nat)

/-- The three words of a table word stand in the RAM from PC on. -/
theorem State.withFetchWord_ramWord :
    (s.withFetchWord nbits w).ramWord s.pc = tableWord (w % 2 ^ nbits) 0 ∧
    (s.withFetchWord nbits w).ramWord (s.pc + 1#16) = tableWord (w % 2 ^ nbits) 1 ∧
    (s.withFetchWord nbits w).ramWord (s.pc + 2#16) = tableWord (w % 2 ^ nbits) 2 := by
  have h01 : s.pc ≠ s.pc + 1#16 := by bv_omega
  have h02 : s.pc ≠ s.pc + 2#16 := by bv_omega
  have h12 : s.pc + 1#16 ≠ s.pc + 2#16 := by bv_omega
  simp [State.withFetchWord, State.ramWord_setRam, h01, h02, h12]

/-- No window lies over those words. -/
theorem State.withFetchWord_inWindow :
    (s.withFetchWord nbits w).inWindow s.pc = false ∧ (s.withFetchWord nbits w).inWindow (s.pc + 1#16) = false ∧
      (s.withFetchWord nbits w).inWindow (s.pc + 2#16) = false := by
  simp only [State.inWindow, State.withFetchWord, State.setRam_devices, List.any_eq_false, List.mem_filter,
    Installation.coversFetch, Bool.not_eq_true', Bool.or_eq_false_iff, Bool.not_eq_true]
  exact ⟨fun m h => h.2.1.1, fun m h => h.2.1.2, fun m h => h.2.2⟩

end

/-- Settles O46: the step fetches the table word's words from the RAM, and they decode as the table word does. -/
theorem fetchWordRuns : Obligations.FetchWordRuns := by
  intro s nbits w i hi
  obtain ⟨hw0, hw1, hw2⟩ := s.withFetchWord_inWindow nbits w
  obtain ⟨hr0, hr1, hr2⟩ := s.withFetchWord_ramWord nbits w
  have hinstr : (s.withFetchWord nbits w).fetched.instr = i := by
    rw [decodeTableWord_eq] at hi
    injection hi with hi
    rw [← hi, ← hr0, ← hr1, ← hr2]
    exact State.fetched_instr_outside hw0 hw1 hw2
  have hstep : step (s.withFetchWord nbits w) = exec i (s.withFetchWord nbits w).fetched.st := by
    rw [step_of_not_skip rfl, hinstr]
  have hst := (s.withFetchWord nbits w).fetched_state
  refine ⟨_, hstep, (congrArg State.regs hst :), (congrArg State.pc hst :), (congrArg State.sp hst :),
    (congrArg State.o hst :), State.fetched_skip _, fun hdef => ?_⟩
  obtain ⟨t, hexec, -⟩ := exec_completed hdef (s.withFetchWord nbits w).fetched.st
  exact ⟨t, hstep.trans hexec⟩

/-! ## What a stored result sends out -/

/-- From `s` to `t` a result `v` went to `l` and its events were sent: to memory one bus write, whose effects come
first; elsewhere none (R62, R72, R162, R164). -/
structure Sent (pc0 : Word) (l : Location) (v : Word) (s t : State) : Prop where
  toMemory : ∀ addr, l = .mem addr → t.bus = s.bus ++ [.write addr v] ∧
    t.outputs = (s.busWrite addr v).outputs ++ [.instructionExecuted pc0 false, .memoryModified addr]
  elsewhere : (∀ addr, l ≠ .mem addr) → t.bus = s.bus ∧ t.outputs = s.outputs ++ [.instructionExecuted pc0 false]

theorem storeResult_sent (pc0 : Word) (l : Location) (v : Word) (s : State) :
    Sent pc0 l v s (storeResult pc0 l v s) := by
  cases l with
  | mem a =>
    refine ⟨fun addr h => ?_, fun h => absurd rfl (h a)⟩
    injection h with h
    subst h
    exact ⟨rfl, rfl⟩
  | reg | sp | pc | o | lit => exact ⟨nofun, fun _ => ⟨rfl, rfl⟩⟩

/-- The overflow word goes to O and sends nothing (R157). -/
theorem storeWithOverflow_sent (pc0 : Word) (l : Location) (v ov : Word) (s : State) :
    Sent pc0 l v s (storeWithOverflow pc0 l v ov s) := by
  obtain ⟨hmem, helse⟩ := storeResult_sent pc0 l v s
  exact ⟨hmem, helse⟩

/-- The state a storing instruction stores from: SET has read operand b alone, the others both (R154). -/
def State.storingFrom (s : State) (i : Instr) (a b : Operand) : State :=
  if i = .set a b then (readSource a b s).st else (readBoth a b s).st

theorem storingFrom_phase (s : State) (i : Instr) (a b : Operand) :
    OperandPhase (extraCount a + extraCount b) (spMove a + spMove b) s (s.storingFrom i a b) := by
  unfold State.storingFrom
  split
  · exact readSource_phase a b s
  · exact readBoth_phase a b s

theorem Completed.sent {i : Instr} {a b : Operand} {s t : State} (h : Completed i s t)
    (hi : i.stores = some (a, b)) : ∃ v, Sent s.pc (resolveBoth a b s).1 v (s.storingFrom i a b) t := by
  cases h with
  | set =>
    cases hi
    rw [State.storingFrom, if_pos rfl]
    exact ⟨_, storeResult_sent _ _ _ _⟩
  | result _ _ h' _ hne =>
    cases hi.symm.trans h'
    rw [State.storingFrom, if_neg hne]
    exact ⟨_, storeResult_sent _ _ _ _⟩
  | overflow _ _ _ h' hov =>
    cases hi.symm.trans h'
    have hne : i ≠ .set a b := by rintro rfl; cases hov
    rw [State.storingFrom, if_neg hne]
    exact ⟨_, storeWithOverflow_sent _ _ _ _ _⟩
  | compared _ _ h' => cases (compares_of_stores hi).symm.trans h'
  | jsr => cases hi

/-- Settles O56: the operand phase sends nothing, and the stored result its effects and events. -/
theorem storeEffectsAndEvents : Obligations.StoreEffectsAndEvents := by
  intro i a b s hi
  obtain ⟨t, hexec, hdone⟩ := exec_completed (isDefined_of_stores hi) s
  obtain ⟨v, hsent⟩ := hdone.sent hi
  have hquiet : (s.storingFrom i a b).outputs = s.outputs := by rw [(storingFrom_phase s i a b).state]
  exact ⟨t, hexec, fun addr hl => ⟨v, hsent.toMemory addr hl⟩, fun hl => hquiet ▸ hsent.elsewhere hl⟩

end Sys2Proof.Machine
end

section
/-! SUPPORT. Encoding (O1 to O6): the fields of a first word, the operands behind them, the three formats an instruction
is decoded from, and that decode and encode undo each other. -/

namespace Sys2Proof.Machine

/-! ## The fields of a first word (R91, R92) -/

theorem opField_toNat (w : Word) : (opField w).toNat = w.toNat % 16 := by
  simp [opField, BitVec.extractLsb'_toNat]

theorem midField_toNat (w : Word) : (midField w).toNat = w.toNat / 16 % 64 := by
  simp [midField, BitVec.extractLsb'_toNat, Nat.shiftRight_eq_div_pow]

theorem topField_toNat (w : Word) : (topField w).toNat = w.toNat / 1024 := by
  simp only [topField, BitVec.extractLsb'_toNat, Nat.shiftRight_eq_div_pow]
  omega

theorem midField_eq_ofNat (w : Word) : midField w = BitVec.ofNat 6 (w.toNat / 16) :=
  BitVec.eq_of_toNat_eq (midField_toNat w)

theorem topField_eq_ofNat (w : Word) : topField w = BitVec.ofNat 6 (w.toNat / 1024) := by
  refine BitVec.eq_of_toNat_eq ?_
  rw [topField_toNat, BitVec.toNat_ofNat]
  omega

theorem opField_eq_zero_iff (w : Word) : opField w = 0#4 ↔ w.toNat % 16 = 0 := by
  rw [← BitVec.toNat_inj, opField_toNat]
  rfl

theorem midField_eq_one_iff (w : Word) : midField w = 1#6 ↔ w.toNat / 16 % 64 = 1 := by
  rw [← BitVec.toNat_inj, midField_toNat]
  rfl

theorem basicWord_toNat {op : Nat} (hop : op < 16) (fa fb : Field6) :
    (basicWord op fa fb).toNat = fb.toNat * 1024 + fa.toNat * 16 + op := by
  rw [basicWord, BitVec.toNat_ofNat]
  omega

/-- The extended format is the basic one with opcode 0 (R93). -/
theorem extendedWord_eq_basicWord (xop f : Field6) : extendedWord xop f = basicWord (0#4).toNat xop f := by
  rw [extendedWord, basicWord, BitVec.toNat_zero, Nat.add_zero]

/-- A first word is put together from its three fields. -/
theorem basicWord_of_fields (w : Word) : basicWord (opField w).toNat (midField w) (topField w) = w := by
  refine BitVec.eq_of_toNat_eq ?_
  rw [basicWord_toNat (opField w).isLt, opField_toNat, midField_toNat, topField_toNat]
  omega

section
variable (op : BitVec 4) (fa fb : Field6)

@[simp] theorem opField_basicWord : opField (basicWord op.toNat fa fb) = op := by
  refine BitVec.eq_of_toNat_eq ?_
  rw [opField_toNat, basicWord_toNat op.isLt]
  omega

@[simp] theorem midField_basicWord : midField (basicWord op.toNat fa fb) = fa := by
  refine BitVec.eq_of_toNat_eq ?_
  rw [midField_toNat, basicWord_toNat op.isLt]
  omega

@[simp] theorem topField_basicWord : topField (basicWord op.toNat fa fb) = fb := by
  refine BitVec.eq_of_toNat_eq ?_
  rw [topField_toNat, basicWord_toNat op.isLt]
  omega

end

section
variable (xop f : Field6)

@[simp] theorem opField_extendedWord : opField (extendedWord xop f) = 0#4 := by
  rw [extendedWord_eq_basicWord, opField_basicWord]

@[simp] theorem midField_extendedWord : midField (extendedWord xop f) = xop := by
  rw [extendedWord_eq_basicWord, midField_basicWord]

@[simp] theorem topField_extendedWord : topField (extendedWord xop f) = f := by
  rw [extendedWord_eq_basicWord, topField_basicWord]

end

/-! ## How many words are read -/

theorem extraWords_basic {w : Word} (h : opField w ≠ 0#4) :
    extraWords w = extra (midField w) + extra (topField w) := by
  simp [extraWords, isExtended, h]

theorem extraWords_extended {w : Word} (h : opField w = 0#4) : extraWords w = extra (topField w) := by
  simp [extraWords, isExtended, h]

/-- A word with an operation reads all its extra words (R156). -/
theorem wordsToRead_defined {w : Word} (h : opField w = 0#4 → midField w = 1#6) :
    wordsToRead w = extraWords w := by
  have hlegal : isIllegal w = false := by
    by_cases hop : opField w = 0#4
    · simp [isIllegal, undefinedXop, h hop]
    · simp [isIllegal, isExtended, hop]
  simp [wordsToRead, hlegal]

/-- An undefined extended word reads none (R158). -/
theorem wordsToRead_undefined {w : Word} (hop : opField w = 0#4) (hxop : midField w ≠ 1#6) : wordsToRead w = 0 := by
  simp [wordsToRead, isIllegal, isExtended, undefinedXop, hop, hxop]

/-! ## Operands and their fields (R94) -/

theorem regNumber_regOf (f : Field6) : regNumber (regOf f) = f.toNat % 8 := by
  have hlt : f.toNat % 8 < 8 := Nat.mod_lt _ (by decide)
  unfold regOf
  split
  case h_8 => simp only [imp_false] at *; simp only [regNumber]; omega
  all_goals simp only [regNumber]; omega

/-- The operand a field names, by the ranges of R94. -/
inductive FieldOperand (f : Field6) (w : Word) : Operand → Prop
  | reg (h : f.toNat < 0x08) : FieldOperand f w (.reg (regOf f))
  | ind (h : 0x08 ≤ f.toNat ∧ f.toNat < 0x10) : FieldOperand f w (.ind (regOf f))
  | indOff (h : 0x10 ≤ f.toNat ∧ f.toNat < 0x18) : FieldOperand f w (.indOff w (regOf f))
  | pop (h : f.toNat = 0x18) : FieldOperand f w .pop
  | peek (h : f.toNat = 0x19) : FieldOperand f w .peek
  | push (h : f.toNat = 0x1A) : FieldOperand f w .push
  | sp (h : f.toNat = 0x1B) : FieldOperand f w .sp
  | pc (h : f.toNat = 0x1C) : FieldOperand f w .pc
  | o (h : f.toNat = 0x1D) : FieldOperand f w .o
  | indNext (h : f.toNat = 0x1E) : FieldOperand f w (.indNext w)
  | litNext (h : f.toNat = 0x1F) : FieldOperand f w (.litNext w)
  | lit (h : 0x20 ≤ f.toNat) : FieldOperand f w (.lit (f.extractLsb' 0 5))

/-- Every field names its operand so; later proofs split on this instead of on `operandOf`'s patterns. -/
theorem operandOf_fieldOperand (f : Field6) (w : Word) : FieldOperand f w (operandOf f w) := by
  have hlt : f.toNat < 64 := f.isLt
  unfold operandOf
  split
  case h_1 => exact .reg (by omega)
  case h_2 => exact .ind (by omega)
  case h_3 => exact .indOff (by omega)
  case h_4 => exact .pop (by omega)
  case h_5 => exact .peek (by omega)
  case h_6 => exact .push (by omega)
  case h_7 => exact .sp (by omega)
  case h_8 => exact .pc (by omega)
  case h_9 => exact .o (by omega)
  case h_10 => exact .indNext (by omega)
  case h_11 =>
    simp only [imp_false] at *
    exact .litNext (by omega)
  case h_12 h0 h1 h2 h3 _ _ _ _ _ _ _ =>
    have hpast : ∀ q : Nat, q ≠ 0 → q ≠ 1 → q ≠ 2 → q ≠ 3 → 4 ≤ q := by omega
    have hdiv : 4 ≤ f.toNat / 8 := hpast _ h0 h1 h2 h3
    exact .lit ((Nat.le_div_iff_mul_le (by decide)).mp hdiv)

theorem FieldOperand.number {f : Field6} {w : Word} {a : Operand} (h : FieldOperand f w a) :
    operandNumber a = f.toNat := by
  have hlt : f.toNat < 64 := f.isLt
  cases h with
  | reg h | ind h | indOff h => rw [operandNumber, regNumber_regOf]; omega
  | lit h => rw [operandNumber, BitVec.extractLsb'_toNat, Nat.shiftRight_zero]; omega
  | pop h | peek h | push h | sp h | pc h | o h | indNext h | litNext h => exact h.symm

theorem FieldOperand.extraWord {f : Field6} {w : Word} {a : Operand} (h : FieldOperand f w a) :
    operandExtra a = [w].take (extra f) := by
  cases h with
  | indOff h | indNext h | litNext h => rw [extra, if_pos (by omega)]; rfl
  | reg h | ind h | pop h | peek h | push h | sp h | pc h | o h | lit h => rw [extra, if_neg (by omega)]; rfl

theorem FieldOperand.eq_lit {f : Field6} {w : Word} {a : Operand} (h : FieldOperand f w a) (hf : 0x20 ≤ f.toNat) :
    a = .lit (f.extractLsb' 0 5) := by
  cases h with
  | lit => rfl
  | reg | ind | indOff | pop | peek | push | sp | pc | o | indNext | litNext => omega

/-- The operand of a field has that field. -/
theorem operandField_operandOf (f : Field6) (w : Word) : operandField (operandOf f w) = f := by
  rw [operandField, (operandOf_fieldOperand f w).number, BitVec.ofNat_toNat, BitVec.setWidth_eq]

/-- The operand of a field has the word after it as its extra word when the field counts one, else none. -/
theorem operandExtra_operandOf (f : Field6) (w : Word) : operandExtra (operandOf f w) = [w].take (extra f) :=
  (operandOf_fieldOperand f w).extraWord

theorem operandField_lit_toNat (v : BitVec 5) : (operandField (.lit v)).toNat = 0x20 + v.toNat := by
  rw [operandField, operandNumber, BitVec.toNat_ofNat]
  omega

/-- The fields from 0x20 up are the inline literals (R133). -/
theorem operandOf_lit (v : BitVec 5) (w : Word) : operandOf (operandField (.lit v)) w = .lit v := by
  have hf := operandField_lit_toNat v
  rw [(operandOf_fieldOperand (operandField (.lit v)) w).eq_lit (by omega)]
  congr 1
  refine BitVec.eq_of_toNat_eq ?_
  rw [BitVec.extractLsb'_toNat, hf, Nat.shiftRight_zero]
  omega

/-- An operand is that of its field and its extra word, whatever word stands there when it has none. -/
theorem operandOf_operandField {a : Operand} {w : Word} (h : ∀ e ∈ operandExtra a, w = e) :
    operandOf (operandField a) w = a := by
  cases a with
  | reg r => cases r <;> rfl
  | ind r => cases r <;> rfl
  | indOff e r =>
    obtain rfl : w = e := h e (.head _)
    change operandOf (BitVec.ofNat 6 (0x10 + regNumber r)) w = .indOff w r
    cases r <;> rfl
  | indNext e =>
    obtain rfl : w = e := h e (.head _)
    change operandOf 0x1E#6 w = .indNext w
    rfl
  | litNext e =>
    obtain rfl : w = e := h e (.head _)
    change operandOf 0x1F#6 w = .litNext w
    rfl
  | lit v => exact operandOf_lit v w
  | pop | peek | push | sp | pc | o => rfl

/-- The same with the operand's own extra word at the head of a list. -/
theorem operandOf_head (a : Operand) (ws : List Word) :
    operandOf (operandField a) ((operandExtra a ++ ws).getD 0 0#16) = a := by
  refine operandOf_operandField fun e he => ?_
  cases a <;> simp_all [operandExtra]

/-- A field counts the extra words of its operand (R96). -/
theorem extra_operandField (a : Operand) : extra (operandField a) = (operandExtra a).length := by
  have hone := extra_le_one (operandField a)
  have hextra := operandExtra_operandOf (operandField a) ((operandExtra a ++ []).getD 0 0#16)
  rw [operandOf_head] at hextra
  rw [hextra, List.length_take, List.length_singleton, Nat.min_eq_left hone]

/-! ## The three formats (R97, R98, R100) -/

/-- What the fifteen basic instructions have in common, each with its one opcode (R97). -/
structure BasicInstr (op : BitVec 4) (a b : Operand) (i : Instr) : Prop where
  encoded : encode i = encodeBasic op.toNat a b
  defined : i.isDefined = true
  operands : (i.stores.isSome || i.compares.isSome) = true
  row : (basicRows.filter (rowMatches (op.setWidth 16))).map OpcodeRow.mnemonic = [i.mnemonic]

theorem eq_ofNat_of_toNat_eq {op : BitVec 4} {n : Nat} (h : op.toNat = n) : op = BitVec.ofNat 4 n := by
  rw [← h, BitVec.ofNat_toNat, BitVec.setWidth_eq]

theorem basicOf_basicInstr {op : BitVec 4} {a b : Operand} {i : Instr} (h : basicOf op a b = some i) :
    BasicInstr op a b i := by
  unfold basicOf at h
  split at h
  case h_16 => cases h
  all_goals
    next hop =>
      obtain rfl := eq_ofNat_of_toNat_eq hop
      cases h
      exact ⟨rfl, rfl, rfl, rfl⟩

/-- Every opcode but 0 has a basic instruction (R97). -/
theorem basicOf_isSome {op : BitVec 4} (hop : op ≠ 0#4) (a b : Operand) : ∃ i, basicOf op a b = some i := by
  cases h : basicOf op a b with
  | some i => exact ⟨i, rfl⟩
  | none =>
    have hsame := basicOf_getD hop a b (.jsr .pop) (.jsr .push)
    rw [h] at hsame
    cases hsame

/-- What a first word and the two words after it decode to, by the format of the first word (R93, R98, R100). -/
inductive Decoded (w e1 e2 : Word) : Instr → Prop
  | basic {i : Instr} (hop : opField w ≠ 0#4)
      (hi : BasicInstr (opField w) (operandOf (midField w) e1)
        (operandOf (topField w) (if extra (midField w) = 1 then e2 else e1)) i) : Decoded w e1 e2 i
  | jsr (hop : opField w = 0#4) (hxop : midField w = 1#6) : Decoded w e1 e2 (.jsr (operandOf (topField w) e1))
  | undefined (hop : opField w = 0#4) (hxop : midField w ≠ 1#6) :
      Decoded w e1 e2 (.unk (midField w) (topField w))

theorem decodeWords_of_basicOf {w e1 e2 : Word} {i : Instr}
    (h : basicOf (opField w) (operandOf (midField w) e1)
      (operandOf (topField w) (if extra (midField w) = 1 then e2 else e1)) = some i) : decodeWords w e1 e2 = i := by
  simp only [decodeWords, h, Option.getD_some]

theorem decodeWords_extended {w : Word} (hop : opField w = 0#4) (e1 e2 : Word) :
    decodeWords w e1 e2 = extendedOf (midField w) (topField w) e1 := by
  simp only [decodeWords, hop, basicOf_zero, Option.getD_none]

/-- Every first word is of one of the three formats (R102). -/
theorem decodeWords_decoded (w e1 e2 : Word) : Decoded w e1 e2 (decodeWords w e1 e2) := by
  by_cases hop : opField w = 0#4
  · rw [decodeWords_extended hop]
    by_cases hxop : midField w = 1#6
    · rw [extendedOf, if_neg (by simp [undefinedXop, hxop])]
      exact .jsr hop hxop
    · rw [extendedOf, if_pos (by simp [undefinedXop, hxop])]
      exact .undefined hop hxop
  · obtain ⟨i, hi⟩ := basicOf_isSome hop (operandOf (midField w) e1)
      (operandOf (topField w) (if extra (midField w) = 1 then e2 else e1))
    rw [decodeWords_of_basicOf hi]
    exact .basic hop (basicOf_basicInstr hi)

theorem wellFormed_of_isDefined {i : Instr} (h : i.isDefined = true) : i.wellFormed = true := by
  cases i with
  | unk => cases h
  | _ => rfl

/-! ## Decoding what was encoded -/

/-- A list long enough for its first word is decoded, and the words past the instruction are left over (R96). -/
theorem decode_cons {w : Word} {ws : List Word} (h : wordsToRead w ≤ ws.length) :
    decode (w :: ws) = .ok (decodeWords w (ws.getD 0 0#16) (ws.getD 1 0#16), ws.drop (extraWords w)) :=
  if_neg (by omega)

/-- Operand b's extra word stands behind that of operand a (R95). -/
theorem getD_behind_operandExtra (a : Operand) (ws : List Word) :
    (if extra (operandField a) = 1 then (operandExtra a ++ ws).getD 1 0#16 else (operandExtra a ++ ws).getD 0 0#16) =
      ws.getD 0 0#16 := by
  rw [extra_operandField]
  cases a <;> rfl

/-- The first word gives back opcode and fields, and each operand finds its extra word at the head of what is left. -/
theorem decode_encodeBasic {op : BitVec 4} {a b : Operand} {i : Instr} (hi : basicOf op a b = some i)
    (rest : List Word) : decode (encodeBasic op.toNat a b ++ rest) = .ok (i, rest) := by
  have hop : op ≠ 0#4 := by
    rintro rfl
    cases hi
  have hextra : extraWords (basicWord op.toNat (operandField a) (operandField b)) =
      (operandExtra a).length + (operandExtra b).length := by
    rw [extraWords_basic (by simpa using hop), midField_basicWord, topField_basicWord, extra_operandField,
      extra_operandField]
  have hread := wordsToRead_defined (w := basicWord op.toNat (operandField a) (operandField b))
    fun h => absurd h (by simpa using hop)
  rw [encodeBasic, List.cons_append, List.append_assoc, decode_cons (by simp [hread, hextra])]
  rw [decodeWords_of_basicOf (i := i), hextra, ← List.append_assoc, ← List.length_append, List.drop_left]
  rw [opField_basicWord, midField_basicWord, topField_basicWord, getD_behind_operandExtra, operandOf_head,
    operandOf_head, hi]

theorem decode_encode_jsr (a : Operand) (rest : List Word) : decode (encode (.jsr a) ++ rest) = .ok (.jsr a, rest) := by
  have hop := opField_extendedWord 1#6 (operandField a)
  have hextra : extraWords (extendedWord 1#6 (operandField a)) = (operandExtra a).length := by
    rw [extraWords_extended hop, topField_extendedWord, extra_operandField]
  have hread := wordsToRead_defined fun _ => midField_extendedWord 1#6 (operandField a)
  rw [encode, List.cons_append, decode_cons (by simp [hread, hextra]), decodeWords_extended hop, hextra, List.drop_left,
    midField_extendedWord, topField_extendedWord, extendedOf, if_neg (by decide), operandOf_head]

theorem decode_encode_unk {xop : Field6} (hxop : xop ≠ 1#6) (f : Field6) :
    decode (encode (.unk xop f)) = .ok (.unk xop f, []) := by
  have hop := opField_extendedWord xop f
  have hread := wordsToRead_undefined hop (by simpa using hxop)
  rw [encode, decode_cons (by simp [hread]), decodeWords_extended hop, List.drop_nil, midField_extendedWord,
    topField_extendedWord, extendedOf, if_pos (by simpa [undefinedXop] using hxop)]

/-- The words of a defined instruction decode to it, whatever follows (R95, R102). -/
theorem decode_encode_append {i : Instr} (h : i.isDefined = true) (rest : List Word) :
    decode (encode i ++ rest) = .ok (i, rest) := by
  cases i with
  | set a b => exact decode_encodeBasic (op := 0x1#4) rfl rest
  | add a b => exact decode_encodeBasic (op := 0x2#4) rfl rest
  | sub a b => exact decode_encodeBasic (op := 0x3#4) rfl rest
  | mul a b => exact decode_encodeBasic (op := 0x4#4) rfl rest
  | div a b => exact decode_encodeBasic (op := 0x5#4) rfl rest
  | mod a b => exact decode_encodeBasic (op := 0x6#4) rfl rest
  | shl a b => exact decode_encodeBasic (op := 0x7#4) rfl rest
  | shr a b => exact decode_encodeBasic (op := 0x8#4) rfl rest
  | and a b => exact decode_encodeBasic (op := 0x9#4) rfl rest
  | bor a b => exact decode_encodeBasic (op := 0xA#4) rfl rest
  | xor a b => exact decode_encodeBasic (op := 0xB#4) rfl rest
  | ife a b => exact decode_encodeBasic (op := 0xC#4) rfl rest
  | ifn a b => exact decode_encodeBasic (op := 0xD#4) rfl rest
  | ifg a b => exact decode_encodeBasic (op := 0xE#4) rfl rest
  | ifb a b => exact decode_encodeBasic (op := 0xF#4) rfl rest
  | jsr a => exact decode_encode_jsr a rest
  | unk => cases h

/-! ## Encoding what was decoded -/

/-- The extra words of both operands, in their order, are the words read (R95, R96). -/
theorem take_extraWords (w e1 e2 : Word) :
    [e1].take (extra (midField w)) ++
        [if extra (midField w) = 1 then e2 else e1].take (extra (topField w)) =
      [e1, e2].take (extra (midField w) + extra (topField w)) := by
  have hmid : extra (midField w) = 0 ∨ extra (midField w) = 1 := Nat.le_one_iff_eq_zero_or_eq_one.mp (extra_le_one _)
  have htop : extra (topField w) = 0 ∨ extra (topField w) = 1 := Nat.le_one_iff_eq_zero_or_eq_one.mp (extra_le_one _)
  obtain hmid | hmid := hmid <;> obtain htop | htop := htop <;> rw [hmid, htop] <;> rfl

/-! ## The opcode table (R97, R98, R100) -/

/-- A row looks at the bits under its mask alone (R97). -/
theorem rowMatches_masked {r : OpcodeRow} {m : Word} (hm : m &&& r.mask = r.mask) (w : Word) :
    rowMatches w r = rowMatches (w &&& m) r := by
  rw [rowMatches, rowMatches, BitVec.and_assoc, hm]

theorem and_opcodeMask (w : Word) : w &&& 0x000F#16 = (opField w).setWidth 16 := by
  refine BitVec.eq_of_toNat_eq ?_
  have hand : w.toNat &&& 15 = w.toNat % 16 := Nat.and_two_pow_sub_one_eq_mod w.toNat 4
  rw [BitVec.toNat_and, BitVec.toNat_setWidth, opField_toNat]
  change w.toNat &&& 15 = _
  omega

theorem and_extendedMask {w : Word} (hop : opField w = 0#4) : w &&& 0x03FF#16 = (midField w).setWidth 16 <<< 4 := by
  refine BitVec.eq_of_toNat_eq ?_
  have hand : w.toNat &&& 1023 = w.toNat % 1024 := Nat.and_two_pow_sub_one_eq_mod w.toNat 10
  have hlow := (opField_eq_zero_iff w).mp hop
  rw [BitVec.toNat_and, BitVec.toNat_shiftLeft, BitVec.toNat_setWidth, midField_toNat, Nat.shiftLeft_eq]
  change w.toNat &&& 1023 = _
  omega

/-- The basic rows look at the opcode alone. -/
theorem filter_basicRows (w : Word) :
    basicRows.filter (rowMatches w) = basicRows.filter (rowMatches ((opField w).setWidth 16)) := by
  have hmask : ∀ r ∈ basicRows, 0x000F#16 &&& r.mask = r.mask := by decide
  rw [← and_opcodeMask]
  exact List.filter_congr fun r hr => rowMatches_masked (hmask r hr) w

/-- No other row matches a basic word. -/
theorem filter_extendedRows {w : Word} (hop : opField w ≠ 0#4) : extendedRows.filter (rowMatches w) = [] := by
  have hmask : ∀ r ∈ extendedRows, r.mask &&& 0x000F#16 = 0x000F#16 ∧ r.pattern &&& 0x000F#16 = 0#16 := by decide
  refine List.filter_eq_nil_iff.mpr fun r hr hmatch => hop ?_
  obtain ⟨hm, hp⟩ := hmask r hr
  have hw : w &&& r.mask = r.pattern := by simpa [rowMatches] using hmatch
  have hzero : (opField w).setWidth 16 = 0#16 := by
    rw [← and_opcodeMask, ← hm, ← BitVec.and_assoc, hw, hp]
  bv_omega

/-- An extended word matches one row, by its extended opcode: that of JSR, or one of the six named UNK (R98, R100). -/
theorem opcodeTable_extended {w : Word} (hop : opField w = 0#4) :
    (opcodeTable.filter (rowMatches w)).map OpcodeRow.mnemonic = [if midField w = 1#6 then "JSR" else "UNK"] := by
  have hmask : ∀ r ∈ opcodeTable, 0x03FF#16 &&& r.mask = r.mask := by decide
  have hrow : ∀ xop : Field6, (opcodeTable.filter (rowMatches (xop.setWidth 16 <<< 4))).map OpcodeRow.mnemonic =
      [if xop = 1#6 then "JSR" else "UNK"] := by decide
  rw [List.filter_congr fun r hr => rowMatches_masked (hmask r hr) w, and_extendedMask hop]
  exact hrow (midField w)

/-! ## The statements -/

/-- Settles O3: the fields of a word put together are the fields it was put together from. -/
theorem decodeOfEncode : Obligations.DecodeOfEncode := by
  intro i hwf
  refine ⟨decode_encode_append, ?_⟩
  cases hdef : i.isDefined with
  | true => simpa using decode_encode_append hdef []
  | false =>
    obtain ⟨xop, f, rfl⟩ : ∃ xop f, i = .unk xop f := by
      cases i with
      | unk xop f => exact ⟨xop, f, rfl⟩
      | _ => cases hdef
    exact decode_encode_unk (by simpa [Instr.wellFormed, undefinedXop] using hwf) f

/-- Settles O4: each format is put together from the fields and extra words it was decoded from. -/
theorem encodeOfDecode : Obligations.EncodeOfDecode := by
  intro w e1 e2
  have hfields := basicWord_of_fields w
  generalize hi : decodeWords w e1 e2 = i
  obtain ⟨hop, hbasic⟩ | ⟨hop, hxop⟩ | ⟨hop, hxop⟩ := hi ▸ decodeWords_decoded w e1 e2
  · refine ⟨wellFormed_of_isDefined hbasic.defined, ?_⟩
    rw [hbasic.encoded, encodeBasic, operandField_operandOf, operandField_operandOf, hfields, operandExtra_operandOf,
      operandExtra_operandOf, take_extraWords, wordsToRead_defined fun h => absurd h hop, extraWords_basic hop,
      Nat.add_comm 1, List.take_succ_cons]
  · refine ⟨rfl, ?_⟩
    rw [hop, hxop] at hfields
    rw [encode, operandField_operandOf, extendedWord_eq_basicWord, hfields, operandExtra_operandOf,
      wordsToRead_defined fun _ => hxop, extraWords_extended hop, Nat.add_comm 1, List.take_succ_cons]
    exact congrArg (w :: ·) (List.take_append_of_le_length (extra_le_one _)).symm
  · refine ⟨by simpa [Instr.wellFormed, undefinedXop] using hxop, ?_⟩
    rw [hop] at hfields
    rw [encode, extendedWord_eq_basicWord, hfields, wordsToRead_undefined hop hxop]
    rfl

/-- Settles O5: a basic word's row is found by its opcode, an extended word's by its extended opcode. -/
theorem eachWordMatchesOneRow : Obligations.EachWordMatchesOneRow := by
  intro w e1 e2
  refine List.map_eq_singleton_iff.mp ?_
  generalize hi : decodeWords w e1 e2 = i
  obtain ⟨hop, hbasic⟩ | ⟨hop, hxop⟩ | ⟨hop, hxop⟩ := hi ▸ decodeWords_decoded w e1 e2
  · rw [opcodeTable, List.filter_append, filter_extendedRows hop, List.append_nil, filter_basicRows, hbasic.row]
  · rw [opcodeTable_extended hop, if_pos hxop]
    rfl
  · rw [opcodeTable_extended hop, if_neg hxop]
    rfl

/-- Settles O6: the three formats, told apart by the first word's low fields. -/
theorem undefinedWordsExactly : Obligations.UndefinedWordsExactly := by
  intro w e1 e2
  have hop0 := opField_eq_zero_iff w
  have hxop1 := midField_eq_one_iff w
  generalize hi : decodeWords w e1 e2 = i
  obtain ⟨hop, hbasic⟩ | ⟨hop, hxop⟩ | ⟨hop, hxop⟩ := hi ▸ decodeWords_decoded w e1 e2
  · have hlow : w.toNat % 16 ≠ 0 := mt hop0.mpr hop
    have hjsr : ¬∃ a, i = .jsr a := by
      rintro ⟨a, rfl⟩
      cases hbasic.operands
    have hoperands : i.stores.isSome = true ∨ i.compares.isSome = true := by simpa using hbasic.operands
    exact ⟨by simp [hbasic.defined, hlow], by simp [hbasic.defined], iff_of_false hjsr (by omega),
      iff_of_true hlow hoperands⟩
  · have hlow := hop0.mp hop
    have hmid := hxop1.mp hxop
    exact ⟨iff_of_false nofun fun h => h.2 hmid, nofun, iff_of_true ⟨_, rfl⟩ (by omega),
      iff_of_false (absurd hlow) nofun⟩
  · have hlow := hop0.mp hop
    have hmid : w.toNat / 16 % 64 ≠ 1 := mt hxop1.mpr hxop
    have hunk : Instr.unk (midField w) (topField w) =
        .unk (BitVec.ofNat 6 (w.toNat / 16)) (BitVec.ofNat 6 (w.toNat / 1024)) := by
      rw [midField_eq_ofNat, topField_eq_ofNat]
    exact ⟨iff_of_true rfl ⟨hlow, hmid⟩, fun _ => hunk, iff_of_false nofun (by omega),
      iff_of_false (absurd hlow) nofun⟩

/-- Settles O1: a field counts an extra word in ten of its values. -/
theorem lengthFromFirstWord : Obligations.LengthFromFirstWord := by
  intro w counts
  have hextra : ∀ f : Field6, extra f = counts f.toNat := by
    intro f
    refine if_congr ?_ rfl rfl
    simp only [List.mem_cons, List.not_mem_nil, or_false]
    omega
  have hmid := extra_le_one (midField w)
  have htop := extra_le_one (topField w)
  rw [← midField_toNat, ← topField_toNat, ← hextra, ← hextra, lengthOf]
  by_cases hop : opField w = 0#4
  · have hlow := (opField_eq_zero_iff w).mp hop
    rw [extraWords_extended hop]
    exact ⟨by omega, fun _ => rfl, absurd hlow⟩
  · have hlow := mt (opField_eq_zero_iff w).mpr hop
    rw [extraWords_basic hop]
    exact ⟨by omega, (absurd · hlow), fun _ => (Nat.add_assoc ..).symm⟩

/-- Settles O2: nine words are the encodings of their instructions, and the tenth lacks its literal. -/
theorem wordsOfTheSpecDecode : Obligations.WordsOfTheSpecDecode :=
  ⟨(decodeOfEncode (.set (.reg .a) (.litNext 0x0030#16)) rfl).2,
    (decodeOfEncode (.set (.indNext 0x1000#16) (.litNext 0x0020#16)) rfl).2,
    (decodeOfEncode (.sub (.reg .a) (.indNext 0x1000#16)) rfl).2,
    (decodeOfEncode (.ifn (.reg .a) (.lit 16#5)) rfl).2,
    (decodeOfEncode (.set (.indOff 0x0001#16 .a) (.indOff 0x0002#16 .b)) rfl).2,
    (decodeOfEncode (.set .pc .pop) rfl).2,
    (decodeOfEncode (.ifb (.lit 31#5) (.lit 31#5)) rfl).2,
    (decodeOfEncode (.jsr (.litNext 0x0006#16)) rfl).2,
    (decodeOfEncode (.unk 0x3F#6 0x18#6) rfl).2, rfl⟩

end Sys2Proof.Machine
end

section
/-! SUPPORT. A literal destination (O36): the result is dropped, and what is left is the operand phase and one event. -/

namespace Sys2Proof.Machine

/-! ## The operand phase writes nothing on the bus -/

theorem readLoc_written (l : Location) (s : State) :
    (readLoc l s).2.bus.filterMap BusAccess.written = s.bus.filterMap BusAccess.written := by
  cases l with
  | mem a => simp [readLoc, BusAccess.written]
  | reg | sp | pc | o | lit => rfl

theorem resolveBoth_bus (a b : Operand) (s : State) : (resolveBoth a b s).2.2.bus = s.bus := by
  rw [resolveBoth_state]

/-- Resolving and reading operands makes no bus write (R156). -/
theorem storingFrom_written (s : State) (i : Instr) (a b : Operand) :
    (s.storingFrom i a b).bus.filterMap BusAccess.written = s.bus.filterMap BusAccess.written := by
  unfold State.storingFrom
  split
  · rw [readSource, readLoc_written, resolveBoth_bus]
  · rw [readBoth, readLoc_written, readLoc_written, resolveBoth_bus]

/-! ## The five instructions without an overflow word -/

/-- SET, MOD, AND, BOR and XOR end in one result stored, and nothing after it (R170, R180, R200). -/
theorem Completed.eq_storeResult {i : Instr} {a b : Operand} {s t : State} (h : Completed i s t)
    (hi : i.stores = some (a, b)) (ho : i.writesOverflow = false) :
    ∃ v, t = storeResult s.pc (resolveBoth a b s).1 v (s.storingFrom i a b) := by
  cases h with
  | set =>
    cases hi
    rw [State.storingFrom, if_pos rfl]
    exact ⟨_, rfl⟩
  | result _ _ h' _ hne =>
    cases hi.symm.trans h'
    rw [State.storingFrom, if_neg hne]
    exact ⟨_, rfl⟩
  | overflow _ _ _ _ hov => cases ho.symm.trans hov
  | compared _ _ h' => cases (compares_of_stores hi).symm.trans h'
  | jsr => cases hi

/-- A literal operand is a literal location, and moves no stack pointer (R132, R133). -/
theorem resolve_of_isLiteral {a : Operand} (h : a.isLiteral = true) (s : State) :
    spMove a = 0#16 ∧ ∃ v, (resolve a s).1 = .lit v := by
  cases a with
  | litNext | lit => exact ⟨rfl, _, rfl⟩
  | _ => cases h

/-- Settles O36: a store to a literal is dropped, so the operand phase and the event are all that happened. -/
theorem literalDestinationDropsResult : Obligations.LiteralDestinationDropsResult := by
  intro i a b s hi ho hlit
  obtain ⟨t, hexec, hdone⟩ := exec_completed (isDefined_of_stores hi) s
  obtain ⟨v, rfl⟩ := hdone.eq_storeResult hi ho
  obtain ⟨hmove, w, hloc⟩ := resolve_of_isLiteral hlit (s.setPc (s.pc + 1#16))
  have hdropped : storeResult s.pc (resolveBoth a b s).1 v (s.storingFrom i a b) =
      (s.storingFrom i a b).finish s.pc [] := by
    rw [resolveBoth, hloc]
    rfl
  have hphase := storingFrom_phase s i a b
  have hstate := hphase.state
  have hsp : (s.storingFrom i a b).sp = s.sp + spMove b := by rw [hphase.sp, hmove, BitVec.zero_add]
  have hpc : (s.storingFrom i a b).pc = s.pc + 1#16 + extraCount a + extraCount b := by
    rw [hphase.pc, BitVec.add_assoc (s.pc + 1#16)]
  have houtputs : (s.storingFrom i a b).outputs = s.outputs := (congrArg State.outputs hstate :)
  refine ⟨_, hexec, ?_⟩
  rw [hdropped]
  exact ⟨(congrArg State.regs hstate :), (congrArg State.o hstate :), hphase.skip, (congrArg State.ram hstate :),
    (congrArg State.params hstate :), (congrArg State.phase hstate :), hsp, hpc, rfl, rfl, storingFrom_written s i a b,
    congrArg (· ++ [Output.instructionExecuted s.pc false]) houtputs⟩

end Sys2Proof.Machine
end

section
/-! SUPPORT. Operand fields (O17, O18): a field is that of one operand, whose location and text `resolve` and
`operandText` give. -/

namespace Sys2Proof.Machine

/-! ## From a field's number to its operand -/

/-- A field with the number of an operand names that operand and counts its extra words (R94, R96). -/
theorem operandOf_of_number {f : Field6} {a : Operand} {w : Word} (hf : f.toNat = operandNumber a)
    (hw : ∀ e ∈ operandExtra a, w = e) : operandOf f w = a ∧ extra f = (operandExtra a).length := by
  have hfield : operandField a = f := by rw [operandField, ← hf, BitVec.ofNat_toNat, BitVec.setWidth_eq]
  exact ⟨hfield ▸ operandOf_operandField hw, hfield ▸ extra_operandField a⟩

/-- The registers in the order of their numbers (R20, log entry 19). -/
theorem regNumber_getElem : ∀ (n : Nat) (h : n < [Reg.a, .b, .c, .x, .y, .z, .i, .j].length),
    regNumber [Reg.a, .b, .c, .x, .y, .z, .i, .j][n] = n := by
  decide

/-- A field from 0x20 up is 0x20 plus a 5-bit value (R133). -/
theorem exists_literal_of_le {f : Field6} (hf : 0x20 ≤ f.toNat) : ∃ v : BitVec 5, f.toNat = 0x20 + v.toNat := by
  have hlt : f.toNat < 64 := f.isLt
  refine ⟨BitVec.ofNat 5 (f.toNat - 0x20), ?_⟩
  rw [BitVec.toNat_ofNat]
  omega

/-! ## Sums cut to 16 bits (R10) -/

/-- A sum of a word's value and a number, cut to 16 bits, is the sum of words. -/
theorem word_toNat_add (v : Word) (n : Nat) : word (v.toNat + n) = v + word n := by
  rw [word, BitVec.ofNat_add, BitVec.ofNat_toNat, BitVec.setWidth_eq]

theorem word_toNat_add_toNat (v u : Word) : word (v.toNat + u.toNat) = v + u := by
  rw [word_toNat_add, word, BitVec.ofNat_toNat, BitVec.setWidth_eq]

/-- PUSH's move lowers SP by one (R127). -/
theorem add_spMove_push (v : Word) : v + spMove .push = v - 1#16 := by
  rw [BitVec.sub_eq_add_neg]
  rfl

theorem word_toNat_add_65535 (v : Word) : word (v.toNat + 65535) = v - 1#16 :=
  (word_toNat_add v 65535).trans (add_spMove_push v)

/-! ## The statements -/

/-- Settles O17: each field has the number of one operand, which has no extra word and moves nothing. -/
theorem plainFieldsResolve : Obligations.PlainFieldsResolve := by
  intro f w s regs
  have hfield (a : Operand) (hf : f.toNat = operandNumber a) (ha : operandExtra a = []) :
      resolve (operandOf f w) s = resolve a s ∧ extra f = 0 ∧ operandText (operandOf f w) = operandText a := by
    obtain ⟨hop, hextra⟩ := operandOf_of_number (w := w) hf (by simp [ha])
    rw [hop, hextra, ha]
    exact ⟨rfl, rfl, rfl⟩
  refine ⟨fun n h hf => hfield (.reg regs[n]) ?_ rfl, fun n h hf => hfield (.ind regs[n]) ?_ rfl,
    fun hf => hfield .peek hf rfl, fun hf => ?_⟩
  · rw [operandNumber, regNumber_getElem n h, hf, Nat.zero_add]
  · rw [operandNumber, regNumber_getElem n h, hf]
  · obtain ⟨v, hv⟩ := exists_literal_of_le hf
    rw [Nat.sub_eq_of_eq_add' hv, word, BitVec.ofNat_toNat]
    exact hfield (.lit v) hv rfl

/-- Settles O18: each field has the number of one operand, whose moves `resolve` makes as sums of words. -/
theorem movingFieldsResolve : Obligations.MovingFieldsResolve := by
  intro f w s regs
  simp only [word_toNat_add_toNat, word_toNat_add_65535, word_toNat_add _ 1]
  have hfield (a : Operand) (hf : f.toNat = operandNumber a) (hw : ∀ e ∈ operandExtra a, w = e) :
      resolve (operandOf f w) s = resolve a s ∧ extra f = (operandExtra a).length := by
    obtain ⟨hop, hextra⟩ := operandOf_of_number hf hw
    rw [hop]
    exact ⟨rfl, hextra⟩
  have hnext : ∀ e ∈ [w], w = e := by simp
  refine ⟨fun n h hf => hfield (.indOff w regs[n]) ?_ hnext, fun hf => hfield .pop hf nofun,
    fun hf => hfield .push hf nofun, fun hf => hfield .sp hf nofun, fun hf => hfield .pc hf nofun,
    fun hf => hfield .o hf nofun, fun hf => hfield (.indNext w) hf hnext, fun hf => hfield (.litNext w) hf hnext⟩
  rw [operandNumber, regNumber_getElem n h, hf]

end Sys2Proof.Machine
end

section
/-! SUPPORT. Operands resolved and read (O19, O20, O55): the frame of the operand phase, the bus reads of memory
operands, and the values of the others. -/

namespace Sys2Proof.Machine

/-! ## The frame of the operand phase -/

/-- What the operands of an instruction leave as it was (R121, R154, R155). -/
theorem OperandPhase.frame {words move : Word} {s u : State} (h : OperandPhase words move s u) :
    u.regs = s.regs ∧ u.o = s.o ∧ u.skip = s.skip ∧ u.ram = s.ram ∧ u.outputs = s.outputs ∧ u.params = s.params ∧
      u.phase = s.phase ∧ u.devices.map Installation.wiring = s.devices.map Installation.wiring := by
  have hstate := h.state
  exact ⟨(congrArg State.regs hstate :), (congrArg State.o hstate :), h.skip, (congrArg State.ram hstate :),
    (congrArg State.outputs hstate :), (congrArg State.params hstate :), (congrArg State.phase hstate :),
    h.viaBus.wiring⟩

/-- PC and SP after the operand phase of two operands, the moves of each written out (R121, R125, R127). -/
theorem OperandPhase.moves {wordsA wordsB moveA moveB : Word} {s u : State}
    (h : OperandPhase (wordsA + wordsB) (moveA + moveB) s u) :
    u.pc = s.pc + 1#16 + wordsA + wordsB ∧ u.sp = s.sp + moveA + moveB :=
  ⟨by rw [h.pc, BitVec.add_assoc (s.pc + 1#16)], by rw [h.sp, BitVec.add_assoc]⟩

/-- Settles O19: each way to resolve and read operands is an operand phase. -/
theorem operandPhaseFrame : Obligations.OperandPhaseFrame := by
  intro a b s same
  have hboth := readBoth_phase a b s
  have hsource := readSource_phase a b s
  have hone := readOperand_phase a s
  exact ⟨⟨hboth.frame, hboth.moves⟩, ⟨hsource.frame, hsource.moves⟩, hone.frame, hone.pc, hone.sp⟩

/-! ## What a bus read depends on -/

/-- Two states that a bus read cannot tell apart: the RAM and the devices are the same (R58). -/
structure SameStore (s t : State) : Prop where
  ram : t.ram = s.ram
  devices : t.devices = s.devices

/-- A read of one address gives the same word in both, and leaves states a further read cannot tell apart. -/
theorem SameStore.busRead {s t : State} (h : SameStore s t) (x : Word) :
    (t.busRead x).1 = (s.busRead x).1 ∧ SameStore (s.busRead x).2 (t.busRead x).2 := by
  simp only [State.busRead_value, h.ram, h.devices, true_and]
  exact ⟨h.ram, by simp only [State.busRead_devices, h.ram, h.devices]⟩

/-- A memory location is read by one bus read of its address (R136). -/
theorem SameStore.readLoc_mem {s t : State} {l : Location} {x : Word} (h : SameStore s t) (hl : l = .mem x) :
    (readLoc l t).1 = (s.busRead x).1 ∧ SameStore (s.busRead x).2 (readLoc l t).2 := by
  subst hl
  exact h.busRead x

/-- No other location is read on the bus (R136). -/
theorem readLoc_of_not_mem {l : Location} (hl : ∀ x, l ≠ .mem x) (s : State) : (readLoc l s).2 = s := by
  cases l with
  | mem x => exact absurd rfl (hl x)
  | reg | sp | pc | o | lit => rfl

/-! ## The locations of memory operands -/

section
variable {a b : Operand} {s : State}

theorem resolveBoth_sameStore (a b : Operand) (s : State) : SameStore s (resolveBoth a b s).2.2 := by
  rw [resolveBoth_state]
  exact ⟨rfl, rfl⟩

theorem resolveBoth_fst_of_address {x : Word} (h : a.address s = some x) (b : Operand) :
    (resolveBoth a b s).1 = .mem x :=
  resolve_of_address (t := s.setPc (s.pc + 1#16)) rfl rfl h

/-- Operand b's address is that with SP as operand a moved it (R134). -/
theorem resolveBoth_snd_of_address {y : Word} (h : b.address { s with sp := s.sp + spMove a } = some y) :
    (resolveBoth a b s).2.1 = .mem y := by
  refine resolve_of_address ?_ ?_ h <;> rw [resolve_state] <;> rfl

/-- Operand b, a memory word, is one bus read of its address, from the state reached (R136). -/
theorem SameStore.readSnd {t u : State} {y : Word} (h : SameStore t u)
    (hy : b.address { s with sp := s.sp + spMove a } = some y) :
    (readLoc (resolveBoth a b s).2.1 u).1 = (t.busRead y).1 ∧
      (readLoc (resolveBoth a b s).2.1 u).2.devices = (t.busRead y).2.devices := by
  obtain ⟨hvalue, hstore⟩ := h.readLoc_mem (resolveBoth_snd_of_address hy)
  exact ⟨hvalue, hstore.devices⟩

/-- Operand b makes no read when it names no memory word. -/
theorem SameStore.readSnd_of_no_address {t u u' : State} (h : SameStore t u) (hb : b.address u' = none) :
    (readLoc (resolveBoth a b s).2.1 u).2.devices = t.devices := by
  have hloc : ∀ x, (resolveBoth a b s).2.1 ≠ .mem x := resolve_of_no_address hb
  rw [readLoc_of_not_mem hloc, h.devices]

/-- Operand a, a memory word, is one bus read of its address, made before b's (R135, R136). -/
theorem readFst_of_address {x : Word} (h : a.address s = some x) (b : Operand) :
    (readBoth a b s).va = (s.busRead x).1 ∧
      SameStore (s.busRead x).2 (readLoc (resolveBoth a b s).1 (resolveBoth a b s).2.2).2 :=
  (resolveBoth_sameStore a b s).readLoc_mem (resolveBoth_fst_of_address h b)

/-- Operand a makes no read when it names no memory word. -/
theorem readFst_of_no_address (h : a.address s = none) (b : Operand) :
    SameStore s (readLoc (resolveBoth a b s).1 (resolveBoth a b s).2.2).2 := by
  have hloc : ∀ x, (resolveBoth a b s).1 ≠ .mem x := resolve_of_no_address h
  rw [readLoc_of_not_mem hloc]
  exact resolveBoth_sameStore a b s

/-- JSR's operand, a memory word: one bus read of its address. -/
theorem readOperand_of_address {x : Word} (h : a.address s = some x) :
    (readOperand a s).1 = (s.busRead x).1 ∧ (readOperand a s).2.devices = (s.busRead x).2.devices := by
  have hstore : SameStore s (resolve a (s.setPc (s.pc + 1#16))).2 := by
    rw [resolve_state]
    exact ⟨rfl, rfl⟩
  obtain ⟨hvalue, hread⟩ := hstore.readLoc_mem (resolve_of_address (t := s.setPc (s.pc + 1#16)) rfl rfl h)
  exact ⟨hvalue, hread.devices⟩

theorem readOperand_devices_of_no_address (h : a.address s = none) : (readOperand a s).2.devices = s.devices := by
  have hloc : ∀ x, (resolve a (s.setPc (s.pc + 1#16))).1 ≠ .mem x := resolve_of_no_address h
  rw [readOperand, readLoc_of_not_mem hloc, resolve_state]
  rfl

end

/-- Settles O55: operand a is read in a state a bus read cannot tell from the start, b in what a's read leaves. -/
theorem memoryOperandsRead : Obligations.MemoryOperandsRead := by
  intro a b s place
  have hresolved := resolveBoth_sameStore a b s
  refine ⟨fun x hx => ?_, fun hx => ?_, hresolved.readSnd_of_no_address, fun y => hresolved.readSnd⟩
  · obtain ⟨hva, hread⟩ := readFst_of_address hx b
    obtain ⟨hone, hdevices⟩ := readOperand_of_address hx
    have hdest := resolveBoth_fst_of_address hx b
    exact ⟨hdest, hdest, hva, hone, hdevices, hread.readSnd_of_no_address, fun y => hread.readSnd⟩
  · have hread := readFst_of_no_address hx b
    exact ⟨readOperand_devices_of_no_address hx, hread.readSnd_of_no_address, fun y => hread.readSnd⟩

/-! ## The values of the other operands -/

section
variable (a b : Operand) (s : State)

theorem resolveBoth_reg (r : Reg) : (resolveBoth a b s).2.2.reg r = s.reg r := by
  rw [resolveBoth_state]
  rfl

theorem resolveBoth_o : (resolveBoth a b s).2.2.o = s.o := by
  rw [resolveBoth_state]

theorem resolveBoth_sp : (resolveBoth a b s).2.2.sp = s.sp + spMove a + spMove b :=
  (resolveBoth_phase a b s).moves.2

theorem resolveBoth_pc : (resolveBoth a b s).2.2.pc = s.pc + 1#16 + extraCount a + extraCount b :=
  (resolveBoth_phase a b s).moves.1

theorem readBoth_sp_va : (readBoth .sp b s).va = s.sp + spMove b :=
  (resolveBoth_sp .sp b s).trans (congrArg (· + spMove b) (BitVec.add_zero _))

theorem readSource_sp_vb : (readSource a .sp s).vb = s.sp + spMove a :=
  (resolveBoth_sp a .sp s).trans (BitVec.add_zero _)

theorem readBoth_pc_va : (readBoth .pc b s).va = s.pc + 1#16 + extraCount b :=
  (resolveBoth_pc .pc b s).trans (congrArg (· + extraCount b) (BitVec.add_zero _))

theorem readSource_pc_vb : (readSource a .pc s).vb = s.pc + 1#16 + extraCount a :=
  (resolveBoth_pc a .pc s).trans (BitVec.add_zero _)

/-- The value of a location outside memory does not depend on what was read before it (R135, R136). -/
theorem readLoc_value_after_readLoc {l : Location} (hl : ∀ x, l ≠ .mem x) (l' : Location) (u : State) :
    (readLoc l (readLoc l' u).2).1 = (readLoc l u).1 := by
  rw [readLoc_state l']
  cases l with
  | mem x => exact absurd rfl (hl x)
  | reg | sp | pc | o | lit => rfl

/-- Reading operand a does not change the value of an operand b that names no memory word. -/
theorem readBoth_vb_of_no_address {b : Operand} (hb : b.address s = none) :
    (readBoth a b s).vb = (readSource a b s).vb :=
  readLoc_value_after_readLoc (resolve_of_no_address hb) _ _

/-- A memory operand of SET reads the word at its address, with SP as operand a moved it (R134). -/
theorem readSource_vb_of_address {b : Operand} {y : Word}
    (hy : b.address { s with sp := s.sp + spMove a } = some y) :
    (readSource a b s).vb = s.peek y :=
  ((resolveBoth_sameStore a b s).readSnd hy).1

end

/-- Settles O20: values are read in the state after both resolutions, which differs from the start in PC and SP only. -/
theorem valuesReadAfterResolution : Obligations.ValuesReadAfterResolution := by
  intro a b r w v s
  have hlit : (v.setWidth 16).toNat = v.toNat := BitVec.toNat_setWidth_of_le (by decide)
  have hvb {b' : Operand} {y : Word} (hb : b'.address s = none) (hy : (readSource a b' s).vb = y) :
      (readBoth a b' s).vb = y ∧ (readSource a b' s).vb = y :=
    ⟨(readBoth_vb_of_no_address a s hb).trans hy, hy⟩
  obtain ⟨hspBoth, hspSource⟩ := hvb rfl (readSource_sp_vb a s)
  obtain ⟨hpcBoth, hpcSource⟩ := hvb rfl (readSource_pc_vb a s)
  obtain ⟨hregBoth, hregSource⟩ := hvb (b' := .reg r) rfl (resolveBoth_reg a (.reg r) s r)
  obtain ⟨hoBoth, hoSource⟩ := hvb (b' := .o) rfl (resolveBoth_o a .o s)
  obtain ⟨hnextBoth, hnextSource⟩ := hvb (b' := .litNext w) (y := w) rfl rfl
  obtain ⟨hlitBoth, hlitSource⟩ := hvb (b' := .lit v) (y := v.setWidth 16) rfl rfl
  exact ⟨readBoth_sp_va b s, hspBoth, hspSource, readBoth_pc_va b s, hpcBoth, hpcSource,
    resolveBoth_reg (.reg r) b s r, hregBoth, hregSource, resolveBoth_o .o b s, hoBoth, hoSource,
    rfl, hnextBoth, hnextSource, hlit, (congrArg BitVec.toNat hlitBoth).trans hlit,
    (congrArg BitVec.toNat hlitSource).trans hlit, rfl, rfl, rfl, rfl, rfl, hlit,
    rfl, readSource_vb_of_address .pop s rfl,
    rfl, readSource_vb_of_address .push s (congrArg some (add_spMove_push s.sp))⟩

end Sys2Proof.Machine
end

section
/-! SUPPORT. The skip step (O39): one read, and PC past the instruction. -/

namespace Sys2Proof.Machine

/-- A skip step sends no memory-modified event, whatever `SKIP_EVENT` says (R163). -/
theorem memoryModified_not_mem_skipEvents (a : Word) (p : Config.Params) (pc0 : Word) :
    Output.memoryModified a ∉ skipEvents p pc0 := by
  unfold skipEvents
  split <;> simp

/-- Settles O39: a skip step is its one read and `skipOver`, which writes PC and the flag only. -/
theorem skipStepPassesOver : Obligations.SkipStepPassesOver := by
  intro s hs
  refine ⟨_, step_of_skip hs, rfl, rfl, rfl, rfl, rfl, rfl, rfl, rfl, rfl, fun a => ?_⟩
  exact memoryModified_not_mem_skipEvents a s.params s.pc

end Sys2Proof.Machine
end

section
/-! SUPPORT. How a step ends (O34, O38, O40): which words have an operation, and what a normal step fetches. -/

namespace Sys2Proof.Machine

/-! ## Words without an operation -/

/-- A word without an operation decodes to the undefined instruction of its extended opcode, and asks for no extra
word (R100, R158). -/
theorem decodeWords_of_not_isDefined {w e1 e2 : Word} (h : (decodeWords w e1 e2).isDefined = false) :
    decodeWords w e1 e2 = .unk (midField w) (topField w) ∧ wordsToRead w = 0 := by
  generalize hi : decodeWords w e1 e2 = i at h
  obtain ⟨-, hbasic⟩ | ⟨-, -⟩ | ⟨hop, hxop⟩ := hi ▸ decodeWords_decoded w e1 e2
  · cases h.symm.trans hbasic.defined
  · cases h
  · exact ⟨rfl, wordsToRead_undefined hop hxop⟩

theorem fetchExtra_of_wordsToRead_zero {w : Word} (h : wordsToRead w = 0) (s : State) : (fetchExtra w s).st = s := by
  simp [fetchExtra, readIf, h]

/-- A step ends in a next state when a skip is pending or the word at PC has an operation (R151, R235). -/
theorem step_next_of_defined {s : State} (h : s.skip = true ∨ s.fetched.instr.isDefined = true) :
    ∃ t, step s = .next t := by
  cases hs : s.skip with
  | true => exact ⟨_, step_of_skip hs⟩
  | false =>
    obtain ⟨t, hexec, -⟩ := exec_completed (h.resolve_left (by simp [hs])) s.fetched.st
    exact ⟨t, (step_of_not_skip hs).trans hexec⟩

/-- Otherwise it raises, after the one read of that word (R156, R158, R231, R232). -/
theorem step_raises_of_undefined {s : State} (hs : s.skip = false) (h : s.fetched.instr.isDefined = false) :
    step s = .fault (.illegalOpcode (midField s.fetched.first) (s.beginStep.busRead s.pc).2) := by
  obtain ⟨hinstr, hnone⟩ := decodeWords_of_not_isDefined h
  have hst : s.fetched.st = (s.beginStep.busRead s.pc).2 := fetchExtra_of_wordsToRead_zero hnone _
  rw [step_of_not_skip hs, Fetched.instr, hinstr, hst]
  rfl

/-- Settles O40: a pending skip, a word with an operation, or a word without one. -/
theorem stepOutcome : Obligations.StepOutcome := by
  intro s w left
  have hundefined : s.fetched.instr.isDefined = false ↔ w.toNat % 16 = 0 ∧ w.toNat / 16 % 64 ≠ 1 :=
    (undefinedWordsExactly w s.fetched.extra1 s.fetched.extra2).1
  have hdefined : s.fetched.instr.isDefined = true ↔ w.toNat % 16 ≠ 0 ∨ w.toNat / 16 % 64 = 1 := by
    rw [← Bool.not_eq_false, hundefined, not_and_or, not_not]
  by_cases hgoes : s.skip = true ∨ w.toNat % 16 ≠ 0 ∨ w.toNat / 16 % 64 = 1
  · obtain ⟨t, hstep⟩ := step_next_of_defined (hgoes.imp_right hdefined.mpr)
    simp only [hstep]
    refine ⟨iff_of_true ⟨t, rfl⟩ hgoes, fun e => iff_of_false nofun ?_, nofun⟩
    rintro ⟨hs, hlow, hmid, -⟩
    simp [hs, hlow, hmid] at hgoes
  · obtain ⟨hs, hlow, hmid⟩ : s.skip = false ∧ w.toNat % 16 = 0 ∧ w.toNat / 16 % 64 ≠ 1 := by simpa using hgoes
    have hstep : step s = .fault (.illegalOpcode (BitVec.ofNat 6 (w.toNat / 16)) left) := by
      rw [← midField_eq_ofNat]
      exact step_raises_of_undefined hs (hundefined.mpr ⟨hlow, hmid⟩)
    simp only [hstep]
    refine ⟨iff_of_false nofun hgoes, fun e => ?_, nofun⟩
    simp [hs, hlow, hmid, eq_comm]

/-- Settles O34: `exec`'s arm for the undefined words is the exception itself. -/
theorem undefinedWordRaises : Obligations.UndefinedWordRaises := by
  intro xop f s
  rfl

/-! ## What a normal step fetches -/

theorem readIf_requests (p : Prop) [Decidable p] (a : Word) (s : State) :
    (readIf (decide p) a s).2.bus.map BusAccess.request =
      s.bus.map BusAccess.request ++ if p then [.get a] else [] := by
  by_cases h : p <;> simp [readIf, h, BusAccess.request]

/-- The fetch reads the first word and as many extra words as that asks for, in order (R65, R156). -/
theorem State.fetched_requests (s : State) :
    s.fetched.st.bus.map BusAccess.request = fetchRequests s.pc (wordsToRead s.fetched.first) := by
  rw [State.fetched, fetchExtra, readIf_requests, readIf_requests]
  rfl

/-- With no window over the extra words, fetching them changes no device (R58). -/
theorem fetchExtra_devices_outside {s : State} (h1 : s.inWindow (s.pc + 1#16) = false)
    (h2 : s.inWindow (s.pc + 2#16) = false) (w : Word) : (fetchExtra w s).st.devices = s.devices := by
  obtain ⟨-, hst1⟩ := readIf_outside h1 (decide (1 ≤ wordsToRead w))
  have hdev1 := congrArg State.devices hst1
  have h2' : (readIf (decide (1 ≤ wordsToRead w)) (s.pc + 1#16) s).2.inWindow (s.pc + 2#16) = false := by
    rw [hst1]; exact h2
  obtain ⟨-, hst2⟩ := readIf_outside h2' (decide (2 ≤ wordsToRead w))
  exact (congrArg State.devices hst2).trans hdev1

/-- With no window over the three words from PC on, the first word is the RAM's and no device changes (R58, R65). -/
theorem State.fetched_outside {s : State} (h0 : s.inWindow s.pc = false) (h1 : s.inWindow (s.pc + 1#16) = false)
    (h2 : s.inWindow (s.pc + 2#16) = false) :
    s.fetched.first = s.ramWord s.pc ∧ s.fetched.st.devices = s.devices := by
  have hfirst : s.beginStep.busRead s.pc =
      (s.ramWord s.pc, { s.beginStep with bus := [.read s.pc (s.ramWord s.pc)] }) := State.busRead_outside h0
  rw [State.fetched, hfirst]
  exact ⟨rfl, fetchExtra_devices_outside (s := { s.beginStep with bus := [.read s.pc (s.ramWord s.pc)] }) h1 h2 _⟩

/-- Three words are always enough, so they decode as `decodeWords` says (R90). -/
theorem decode_three {w e1 e2 : Word} {i : Instr} {rest : List Word} (h : decode [w, e1, e2] = .ok (i, rest)) :
    decodeWords w e1 e2 = i := by
  rw [decode_cons (wordsToRead_le_two w)] at h
  injection h with h
  exact congrArg Prod.fst h

/-- Settles O38: what is fetched decodes to the instruction that the step executes. -/
theorem stepRunsDecodedInstruction : Obligations.StepRunsDecodedInstruction := by
  intro s i rest hs _
  refine ⟨fun hdecode => ?_, fun h0 h1 h2 hdecode => ?_⟩
  · have hinstr : s.fetched.instr = i := decode_three hdecode
    exact ⟨hinstr ▸ step_of_not_skip hs, s.fetched_state, s.fetched_requests⟩
  · have hinstr : s.fetched.instr = i := (State.fetched_instr_outside h0 h1 h2).trans (decode_three hdecode)
    obtain ⟨hfirst, hdevices⟩ := State.fetched_outside h0 h1 h2
    exact ⟨hfirst, hdevices, hinstr ▸ step_of_not_skip hs⟩

end Sys2Proof.Machine
end

section
/-! SUPPORT. The bus accesses and the events of a normal step (O43, O44, O45): each of the three kinds of instruction,
told apart by its operands. -/

namespace Sys2Proof.Machine

/-- An instruction with an operation stores a result, compares its operands, or is JSR (R97, R98). -/
theorem operands_of_isDefined {i : Instr} (h : i.isDefined = true) :
    (∃ a b, i.stores = some (a, b)) ∨ (∃ a b, i.compares = some (a, b)) ∨ ∃ a, i = .jsr a := by
  cases i with
  | unk => cases h
  | jsr a => exact .inr (.inr ⟨a, rfl⟩)
  | ife a b | ifn a b | ifg a b | ifb a b => exact .inr (.inl ⟨a, b, rfl⟩)
  | _ a b => exact .inl ⟨a, b, rfl⟩

theorem isDefined_of_compares {i : Instr} {ab : Operand × Operand} (h : i.compares = some ab) :
    i.isDefined = true := by
  cases i with
  | unk => cases h
  | _ => rfl

/-- A conditional ends its operand phase and records its test (R210). -/
theorem Completed.eq_skipUnless {i : Instr} {a b : Operand} {s t : State} (h : Completed i s t)
    (hi : i.compares = some (a, b)) : ∃ holds, t = skipUnless s.pc holds (readBoth a b s).st := by
  cases h with
  | compared _ holds h' =>
    cases hi.symm.trans h'
    exact ⟨holds, rfl⟩
  | result _ _ h' | overflow _ _ _ h' => cases (compares_of_stores h').symm.trans hi
  | set | jsr => cases hi

/-- JSR ends in its push and its jump (R220). -/
theorem Completed.eq_call {a : Operand} {s t : State} (h : Completed (.jsr a) s t) :
    t = ((pushWord (readOperand a s).2.pc (readOperand a s).2).setPc (readOperand a s).1).finish s.pc
      [.memoryModified ((readOperand a s).2.sp - 1#16)] := by
  cases h with
  | jsr => rfl
  | result _ _ h' | overflow _ _ _ h' | compared _ _ h' => cases h'

/-- A conditional's end sends its one event and asks nothing of the bus (R161, R210). -/
theorem skipUnless_quiet (pc0 : Word) (holds : Bool) (s : State) :
    (skipUnless pc0 holds s).pc = s.pc ∧ (skipUnless pc0 holds s).bus = s.bus ∧
      (skipUnless pc0 holds s).outputs = s.outputs ++ [.instructionExecuted pc0 false] := by
  cases holds <;> exact ⟨rfl, rfl, rfl⟩

/-! ## Requests -/

theorem readBoth_requests (a b : Operand) (s : State) :
    (readBoth a b s).st.bus.map BusAccess.request =
      s.bus.map BusAccess.request ++ (resolveBoth a b s).1.getRequests ++ (resolveBoth a b s).2.1.getRequests := by
  rw [readBoth, readLoc_requests, readLoc_requests, resolveBoth_bus]

/-- SET reads the word of operand b alone, the other storing instructions that of a and then that of b (R135, R156). -/
theorem storingFrom_requests (s : State) (i : Instr) (a b : Operand) :
    (s.storingFrom i a b).bus.map BusAccess.request =
      s.bus.map BusAccess.request ++ (if i = .set a b then [] else (resolveBoth a b s).1.getRequests) ++
        (resolveBoth a b s).2.1.getRequests := by
  unfold State.storingFrom
  split
  · rw [readSource, readLoc_requests, resolveBoth_bus, List.append_nil]
  · exact readBoth_requests a b s

theorem readOperand_requests (a : Operand) (s : State) :
    (readOperand a s).2.bus.map BusAccess.request = s.bus.map BusAccess.request ++ (resolve a s).1.getRequests := by
  have hloc : (resolve a (s.setPc (s.pc + 1#16))).1 = (resolve a s).1 := resolve_location_congr a rfl rfl
  rw [readOperand, readLoc_requests, hloc, resolve_state]
  rfl

/-- A stored result costs one write if it goes to memory, else none (R137). -/
theorem Sent.requests {pc0 : Word} {l : Location} {v : Word} {s t : State} (h : Sent pc0 l v s t) :
    t.bus.map BusAccess.request = s.bus.map BusAccess.request ++ l.putRequests := by
  cases l with
  | mem a => simp [(h.toMemory a rfl).1, Location.putRequests, BusAccess.request]
  | reg | sp | pc | o | lit => simp [(h.elsewhere nofun).1, Location.putRequests]

/-- JSR's last request is the push, to the address that SP ends at (R220). -/
theorem Completed.call_requests {a : Operand} {s t : State} (h : Completed (.jsr a) s t) :
    t.bus.map BusAccess.request =
      s.bus.map BusAccess.request ++ (resolve a s).1.getRequests ++ [.put t.sp] := by
  rw [h.eq_call, ← readOperand_requests]
  simp [pushWord, BusAccess.request]

/-- A normal step that fetched an instruction with an operation completes it. -/
theorem step_completed {s : State} (hs : s.skip = false) (h : s.fetched.instr.isDefined = true) :
    ∃ t, step s = .next t ∧ Completed s.fetched.instr s.fetched.st t := by
  rw [step_of_not_skip hs]
  exact exec_completed h s.fetched.st

/-- Settles O43: the requests of the fetch, of the operands and of the end, in that order. -/
theorem busAccessesInOrder : Obligations.BusAccessesInOrder := by
  intro s hs i fetch
  have hfetch : s.fetched.st.bus.map BusAccess.request = fetch := s.fetched_requests
  refine ⟨fun a b hi => ?_, fun a b hi => ?_, fun a hi => ?_⟩
  · obtain ⟨t, hstep, hdone⟩ := step_completed hs (isDefined_of_stores hi)
    obtain ⟨v, hsent⟩ := hdone.sent hi
    exact ⟨t, hstep, by rw [hsent.requests, storingFrom_requests, hfetch]⟩
  · obtain ⟨t, hstep, hdone⟩ := step_completed hs (isDefined_of_compares hi)
    obtain ⟨holds, rfl⟩ := hdone.eq_skipUnless hi
    obtain ⟨-, hbus, -⟩ := skipUnless_quiet s.fetched.st.pc holds (readBoth a b s.fetched.st).st
    exact ⟨_, hstep, by rw [hbus, readBoth_requests, hfetch]⟩
  · obtain ⟨t, hstep, hdone⟩ := step_completed hs (congrArg Instr.isDefined hi)
    rw [← hfetch]
    exact ⟨t, hstep, Completed.call_requests (hi ▸ hdone)⟩

/-! ## How many requests -/

/-- At most `n` requests, each a read. -/
structure ReadsAtMost (n : Nat) (qs : List BusRequest) : Prop where
  reads : ∀ q ∈ qs, ∃ a, q = .get a
  length : qs.length ≤ n

theorem ReadsAtMost.append {m n : Nat} {ps qs : List BusRequest} (hp : ReadsAtMost m ps) (hq : ReadsAtMost n qs) :
    ReadsAtMost (m + n) (ps ++ qs) where
  reads q h := (List.mem_append.mp h).elim (hp.reads q) (hq.reads q)
  length := by
    rw [List.length_append]
    exact Nat.add_le_add hp.length hq.length

theorem ReadsAtMost.mono {m n : Nat} {qs : List BusRequest} (h : ReadsAtMost m qs) (hmn : m ≤ n) : ReadsAtMost n qs :=
  ⟨h.reads, h.length.trans hmn⟩

theorem ReadsAtMost.nil (n : Nat) : ReadsAtMost n [] := ⟨nofun, n.zero_le⟩

theorem ReadsAtMost.single (a : Word) : ReadsAtMost 1 [.get a] := ⟨by simp, Nat.le_refl 1⟩

theorem ReadsAtMost.getRequests (l : Location) : ReadsAtMost 1 l.getRequests := by
  cases l with
  | mem a => exact .single a
  | reg | sp | pc | o | lit => exact .nil 1

/-- A fetch reads at PC and then at most two words more (R90, R156). -/
theorem fetchRequests_eq (pc : Word) (n : Nat) : ∃ qs, fetchRequests pc n = .get pc :: qs ∧ ReadsAtMost 2 qs := by
  have hread (p : Prop) [Decidable p] (a : Word) : ReadsAtMost 1 (if p then [.get a] else []) := by
    split
    · exact .single a
    · exact .nil 1
  exact ⟨_, rfl, (hread (1 ≤ n) _).append (hread (2 ≤ n) _)⟩

/-- At most one write. -/
def OneWriteAtMost (qs : List BusRequest) : Prop := qs = [] ∨ ∃ a, qs = [.put a]

theorem OneWriteAtMost.putRequests (l : Location) : OneWriteAtMost l.putRequests := by
  cases l with
  | mem a => exact .inr ⟨a, rfl⟩
  | reg | sp | pc | o | lit => exact .inl rfl

/-- The requests of a normal step: the fetch, at most two reads of operands, at most one write (R156). -/
theorem step_requests {s t : State} (h : step s = .next t) (hs : s.skip = false) :
    ∃ operands writes, t.bus.map BusAccess.request =
        fetchRequests s.pc (wordsToRead s.fetched.first) ++ operands ++ writes ∧
      ReadsAtMost 2 operands ∧ OneWriteAtMost writes := by
  obtain ⟨hstores, hcompares, hjsr⟩ := busAccessesInOrder s hs
  obtain ⟨hdef, -⟩ := exec_next ((step_of_not_skip hs).symm.trans h)
  have hsame {u : State} (hu : step s = .next u) : u = t := by
    injection hu.symm.trans h
  obtain ⟨a, b, hi⟩ | ⟨a, b, hi⟩ | ⟨a, hi⟩ := operands_of_isDefined hdef
  · obtain ⟨u, hu, hbus⟩ := hstores a b hi
    have hfst : ReadsAtMost 1 (if s.fetched.instr = .set a b then []
        else (resolveBoth a b s.fetched.st).1.getRequests) := by
      split
      · exact .nil 1
      · exact .getRequests _
    rw [List.append_assoc (fetchRequests _ _)] at hbus
    exact ⟨_, _, hsame hu ▸ hbus, hfst.append (.getRequests _), .putRequests _⟩
  · obtain ⟨u, hu, hbus⟩ := hcompares a b hi
    rw [List.append_assoc, ← List.append_nil (_ ++ _)] at hbus
    exact ⟨_, [], hsame hu ▸ hbus, (ReadsAtMost.getRequests _).append (.getRequests _), .inl rfl⟩
  · obtain ⟨u, hu, hbus⟩ := hjsr a hi
    exact ⟨_, _, hsame hu ▸ hbus, (ReadsAtMost.getRequests _).mono (by decide), .inr ⟨_, rfl⟩⟩

/-- Settles O44: a skip step reads once, and a normal step asks for what its instruction's list says. -/
theorem fiveReadsOneWrite : Obligations.FiveReadsOneWrite := by
  intro s t h
  obtain ⟨-, rfl⟩ | ⟨hs, -⟩ := step_next h
  · exact ⟨[], [], rfl, nofun, Nat.zero_le 4, .inl rfl⟩
  · obtain ⟨operands, writes, hbus, hoperands, hwrites⟩ := step_requests h hs
    obtain ⟨extras, hfetch, hextras⟩ := fetchRequests_eq s.pc (wordsToRead s.fetched.first)
    obtain ⟨hreads, hlength⟩ := hextras.append hoperands
    refine ⟨extras ++ operands, writes, ?_, hreads, hlength, hwrites⟩
    rw [hbus, hfetch, List.cons_append, List.cons_append]

/-! ## Events -/

/-- An effect of a written device outside the machine: a repaint, or a device's own (R62, R246, R250). -/
def Output.IsEffect (e : Output) : Prop :=
  (∃ base offset cell, e = .repaint base offset cell) ∨ ∃ name base code, e = .deviceEffect name base code

/-- From `s` to `t` an instruction wrote some bus addresses, and sent effects of devices, then `instructionExecuted`,
then `memoryModified` for each address it wrote (R161, R162, R164). -/
def Reported (pc0 : Word) (s t : State) : Prop :=
  ∃ effects addrs, (∀ e ∈ effects, Output.IsEffect e) ∧
    t.bus.filterMap BusAccess.written = s.bus.filterMap BusAccess.written ++ addrs ∧
    t.outputs = s.outputs ++ effects ++ .instructionExecuted pc0 false :: addrs.map .memoryModified

/-- A result stored is reported: a bus write with its effects, or no bus write (R62, R137). -/
theorem Sent.reported {pc0 : Word} {l : Location} {v : Word} {s t : State} (h : Sent pc0 l v s t) :
    Reported pc0 s t := by
  cases l with
  | mem a =>
    obtain ⟨hbus, houtputs⟩ := h.toMemory a rfl
    exact ⟨_, [a], fun _ => routeWrite_effects, by simp [hbus, BusAccess.written], houtputs⟩
  | reg | sp | pc | o | lit =>
    obtain ⟨hbus, houtputs⟩ := h.elsewhere nofun
    exact ⟨[], [], nofun, by simp [hbus], by simp [houtputs]⟩

theorem skipUnless_reported (pc0 : Word) (holds : Bool) (s : State) : Reported pc0 s (skipUnless pc0 holds s) := by
  obtain ⟨-, hbus, houtputs⟩ := skipUnless_quiet pc0 holds s
  exact ⟨[], [], nofun, by simp [hbus], by simp [houtputs]⟩

/-- JSR's push is reported as the write it is (R162, R220). -/
theorem Completed.call_reported {a : Operand} {s t : State} (h : Completed (.jsr a) s t) :
    Reported s.pc (readOperand a s).2 t := by
  rw [h.eq_call]
  exact ⟨_, [(readOperand a s).2.sp - 1#16], fun _ => routeWrite_effects, by simp [pushWord, BusAccess.written], rfl⟩

/-- What happened before without a message or a bus write can be counted in. -/
theorem Reported.of_quiet {pc0 : Word} {s u t : State} (h : Reported pc0 u t) (houtputs : u.outputs = s.outputs)
    (hwritten : u.bus.filterMap BusAccess.written = s.bus.filterMap BusAccess.written) : Reported pc0 s t := by
  rwa [Reported, houtputs, hwritten] at h

theorem OperandPhase.outputs {words move : Word} {s u : State} (h : OperandPhase words move s u) :
    u.outputs = s.outputs := by
  rw [h.state]

theorem readBoth_written (a b : Operand) (s : State) :
    (readBoth a b s).st.bus.filterMap BusAccess.written = s.bus.filterMap BusAccess.written := by
  rw [readBoth, readLoc_written, readLoc_written, resolveBoth_bus]

theorem readOperand_written (a : Operand) (s : State) :
    (readOperand a s).2.bus.filterMap BusAccess.written = s.bus.filterMap BusAccess.written := by
  rw [readOperand, readLoc_written, resolve_state]
  rfl

/-- Every instruction with an operation reports what it wrote (R164). -/
theorem Completed.reported {i : Instr} {s t : State} (h : Completed i s t) (hdef : i.isDefined = true) :
    Reported s.pc s t := by
  obtain ⟨a, b, hi⟩ | ⟨a, b, hi⟩ | ⟨a, rfl⟩ := operands_of_isDefined hdef
  · obtain ⟨v, hsent⟩ := h.sent hi
    exact hsent.reported.of_quiet (storingFrom_phase s i a b).outputs (storingFrom_written s i a b)
  · obtain ⟨holds, rfl⟩ := h.eq_skipUnless hi
    exact (skipUnless_reported _ _ _).of_quiet (readBoth_phase a b s).outputs (readBoth_written a b s)
  · exact h.call_reported.of_quiet (readOperand_phase a s).outputs (readOperand_written a s)

theorem readIf_written (wanted : Bool) (a : Word) (s : State) :
    (readIf wanted a s).2.bus.filterMap BusAccess.written = s.bus.filterMap BusAccess.written := by
  cases wanted with
  | true => simp [readIf, BusAccess.written]
  | false => rfl

/-- A fetch writes nothing on the bus (R156). -/
theorem State.fetched_written (s : State) : s.fetched.st.bus.filterMap BusAccess.written = [] :=
  (readIf_written _ _ _).trans (readIf_written _ _ _)

/-- Settles O45: the fetch sends and writes nothing, and the instruction reports what it wrote. -/
theorem eventsOfNormalStep : Obligations.EventsOfNormalStep := by
  intro s t h hs
  obtain ⟨hdef, hdone⟩ := exec_next ((step_of_not_skip hs).symm.trans h)
  obtain ⟨effects, addrs, heffects, hwritten, houtputs⟩ := hdone.reported hdef
  have hpc : s.fetched.st.pc = s.pc := (congrArg State.pc s.fetched_state :)
  have hsilent : s.fetched.st.outputs = [] := (congrArg State.outputs s.fetched_state :)
  rw [s.fetched_written, List.nil_append] at hwritten
  rw [hsilent, List.nil_append, hpc, ← hwritten] at houtputs
  exact ⟨effects, heffects, houtputs⟩

end Sys2Proof.Machine
end

section
/-! SUPPORT. PC after a normal step (O42): the words an instruction is encoded in are those PC passes. -/

namespace Sys2Proof.Machine

/-- The length read off a first word with an operation is the length of its instruction's encoding (R96, R103). -/
theorem lengthOf_eq_length_encode {w e1 e2 : Word} (h : (decodeWords w e1 e2).isDefined = true) :
    lengthOf w = (encode (decodeWords w e1 e2)).length := by
  have hread : wordsToRead w = extraWords w := by
    refine wordsToRead_defined fun hop => ?_
    by_contra hxop
    obtain ⟨hundefined, -⟩ := undefinedWordsExactly w e1 e2
    have hfalse := hundefined.mpr ⟨(opField_eq_zero_iff w).mp hop, mt (midField_eq_one_iff w).mpr hxop⟩
    cases h.symm.trans hfalse
  have henough : 1 + wordsToRead w ≤ [w, e1, e2].length := Nat.add_le_add_left (wordsToRead_le_two w) 1
  rw [(encodeOfDecode w e1 e2).2, List.length_take, Nat.min_eq_left henough, hread, lengthOf]

/-- An instruction of two operands is encoded in its first word and the extra words of both (R95). -/
theorem length_encode_of_operands {i : Instr} {a b : Operand}
    (h : i.stores = some (a, b) ∨ i.compares = some (a, b)) :
    (encode i).length = 1 + (operandExtra a).length + (operandExtra b).length := by
  have hbasic (op : Nat) : (encodeBasic op a b).length = 1 + (operandExtra a).length + (operandExtra b).length := by
    rw [encodeBasic, List.length_cons, List.length_append]
    omega
  cases i with
  | unk | jsr => simp [Instr.stores, Instr.compares] at h
  | _ a' b' =>
    obtain ⟨rfl, rfl⟩ : a' = a ∧ b' = b := by simpa [Instr.stores, Instr.compares] using h
    exact hbasic _

/-- The words PC passes in the operand phase are those of the instruction (R141, R155). -/
theorem OperandPhase.pc_eq_length {i : Instr} {a b : Operand} {move : Word} {s u : State}
    (h : OperandPhase (extraCount a + extraCount b) move s u)
    (hi : i.stores = some (a, b) ∨ i.compares = some (a, b)) : u.pc = s.pc + word (encode i).length := by
  rw [h.pc, length_encode_of_operands hi]
  simp only [extraCount, word, BitVec.ofNat_add, BitVec.add_assoc]

/-- An instruction that neither stores to PC nor calls leaves PC behind its last word (R155). -/
theorem Completed.pc_eq {i : Instr} {s t : State} (h : Completed i s t) (hdef : i.isDefined = true)
    (hstore : ∀ a b, i.stores = some (a, b) → (resolveBoth a b s).1 ≠ .pc) (hcall : ∀ a, i ≠ .jsr a) :
    t.pc = s.pc + word (encode i).length := by
  obtain ⟨a, b, hi⟩ | ⟨a, b, hi⟩ | ⟨a, hi⟩ := operands_of_isDefined hdef
  · obtain ⟨v, o', u, hphase, ⟨-, -, hpc, -⟩, -⟩ := h.stored hi
    rw [hpc, if_neg (hstore a b hi), hphase.pc_eq_length (.inl hi)]
  · obtain ⟨holds, rfl⟩ := h.eq_skipUnless hi
    rw [(skipUnless_quiet _ _ _).1, (readBoth_phase a b s).pc_eq_length (.inr hi)]
  · exact absurd hi (hcall a)

/-- Settles O42: PC passes the instruction's words, and their number is the length read off the first one. -/
theorem pcFollowsInstruction : Obligations.PcFollowsInstruction := by
  intro s t h hs hstore hcall
  obtain ⟨hdef, hdone⟩ := exec_next ((step_of_not_skip hs).symm.trans h)
  have hpc : s.fetched.st.pc = s.pc := (congrArg State.pc s.fetched_state :)
  have hlength : lengthOf s.fetched.first = (encode s.fetched.instr).length := lengthOf_eq_length_encode hdef
  rw [hdone.pc_eq hdef hstore hcall, hpc, hlength]

end Sys2Proof.Machine
end

section
/-! SUPPORT. SET (O21): its words, and where the word it reads goes. -/

namespace Sys2Proof.Machine

/-- A basic instruction is encoded in every word whose opcode field is its own (R91, R97). -/
theorem encodedAs_of_basicOf {op : BitVec 4} {c : Operand → Operand → Instr}
    (h : ∀ a b, basicOf op a b = some (c a b)) : EncodedAs op.toNat c := by
  intro w e1 e2 hw
  have hop : opField w = op := BitVec.eq_of_toNat_eq ((opField_toNat w).trans hw)
  refine decodeWords_of_basicOf ?_
  rw [hop, midField_eq_ofNat, topField_eq_ofNat]
  exact h _ _

/-- SET ends by storing the word it read, and by nothing else (R170). -/
theorem exec_set (a b : Operand) (s : State) :
    exec (.set a b) s = .next (storeResult s.pc (readSource a b s).dest (readSource a b s).vb (readSource a b s).st) :=
  rfl

/-- Settles O21: opcode 1 names SET, and the common end of a step stores what SET read. -/
theorem setStoresSource : Obligations.SetStoresSource :=
  ⟨encodedAs_of_basicOf (op := 0x1#4) fun _ _ => rfl, fun a b s => ⟨_, exec_set a b s, storeResult_wrote _ _ _ _⟩⟩

end Sys2Proof.Machine
end

section
/-! SUPPORT. ADD, SUB, MUL, DIV and MOD (O22 to O27): what the model's exact integers are as words, and how each
instruction ends. -/

namespace Sys2Proof.Machine

/-! ## Sum, difference and product (R176 to R178) -/

theorem addResult_eq (va vb : Word) : addResult va vb = va + vb := word_toNat_add_toNat va vb

/-- The 2^16 that keeps the difference from going below 0 is cut off with it (R10). -/
theorem subResult_eq (va vb : Word) : subResult va vb = va - vb := by
  refine BitVec.eq_of_toNat_eq ?_
  rw [subResult, BitVec.toNat_ofNat, BitVec.toNat_sub]
  omega

/-- The product of two words is below 2^32, so its two halves are the whole of it. -/
theorem mulOverflow_mulResult (va vb : Word) :
    (mulOverflow va vb).toNat * 65536 + (mulResult va vb).toNat = va.toNat * vb.toNat := by
  have hbelow : va.toNat * vb.toNat < 65536 * 65536 := Nat.mul_lt_mul'' va.isLt vb.isLt
  have hhigh : (mulOverflow va vb).toNat = va.toNat * vb.toNat / 65536 := toNat_word (Nat.div_lt_of_lt_mul hbelow)
  rw [hhigh, mulResult, BitVec.toNat_ofNat]
  exact Nat.div_add_mod' _ 65536

/-! ## Quotient, remainder and fraction (R179, R180) -/

/-- The quotient of a scaled dividend is the scaled quotient and the quotient of the scaled remainder. -/
theorem mul_div_eq_div_mul_add (n k : Nat) {d : Nat} (hd : 0 < d) : n * k / d = n / d * k + n % d * k / d := by
  calc n * k / d = (n % d * k + n / d * k * d) / d := by
        rw [Nat.mul_right_comm, ← Nat.add_mul, Nat.add_comm, Nat.div_add_mod']
    _ = n / d * k + n % d * k / d := by rw [Nat.add_mul_div_right _ _ hd, Nat.add_comm]

/-- The fraction digits of a division are fewer than the scale. -/
theorem mod_mul_div_lt (n : Nat) {k d : Nat} (hk : 0 < k) (hd : 0 < d) : n % d * k / d < k :=
  Nat.div_lt_of_lt_mul (Nat.mul_lt_mul_of_pos_right (Nat.mod_lt n hd) hk)

section
variable {va vb : Word}

theorem toNat_pos_of_ne_zero (h : vb ≠ 0#16) : 0 < vb.toNat :=
  Nat.pos_of_ne_zero fun h0 => h (BitVec.eq_of_toNat_eq h0)

theorem divResult_toNat (h : vb ≠ 0#16) : (divResult va vb).toNat = va.toNat / vb.toNat := by
  rw [divResult, if_neg h, toNat_word (Nat.lt_of_le_of_lt (Nat.div_le_self _ _) va.isLt)]

theorem modResult_toNat (h : vb ≠ 0#16) : (modResult va vb).toNat = va.toNat % vb.toNat := by
  rw [modResult, if_neg h, toNat_word (Nat.lt_of_le_of_lt (Nat.mod_le _ _) va.isLt)]

/-- O after DIV is the low word of the exact scaled quotient (R179, decision D4). -/
theorem divOverflow_toNat (h : vb ≠ 0#16) :
    (divOverflow va vb).toNat = va.toNat * 65536 / vb.toNat % 65536 := by
  rw [divOverflow, if_neg h]
  exact BitVec.toNat_ofNat _ _

/-- The whole part of the scaled quotient is cut off, and what the remainder gives fits a word (R179). -/
theorem divOverflow_toNat_eq_fraction (h : vb ≠ 0#16) :
    (divOverflow va vb).toNat = va.toNat % vb.toNat * 65536 / vb.toNat := by
  have hpos := toNat_pos_of_ne_zero h
  rw [divOverflow_toNat h, mul_div_eq_div_mul_add _ _ hpos, Nat.mul_add_mod_self_right,
    Nat.mod_eq_of_lt (mod_mul_div_lt _ (by omega) hpos)]

end

/-! ## How the five instructions end -/

/-- The end of an instruction that computes its result by `f` and its overflow word by `ov` (R157, R175). -/
def endWithOverflow (f ov : Word → Word → Word) (a b : Operand) (s : State) : State :=
  let r := readBoth a b s
  storeWithOverflow s.pc r.dest (f r.va r.vb) (ov r.va r.vb) r.st

section
variable (a b : Operand) (s : State)

theorem endWithOverflow_wrote (f ov : Word → Word → Word) :
    Wrote (readBoth a b s).dest (f (readBoth a b s).va (readBoth a b s).vb)
      (ov (readBoth a b s).va (readBoth a b s).vb) (readBoth a b s).st (endWithOverflow f ov a b s) :=
  storeWithOverflow_wrote _ _ _ _ _

theorem exec_add : exec (.add a b) s = .next (endWithOverflow addResult addOverflow a b s) := rfl

theorem exec_sub : exec (.sub a b) s = .next (endWithOverflow subResult subOverflow a b s) := rfl

theorem exec_mul : exec (.mul a b) s = .next (endWithOverflow mulResult mulOverflow a b s) := rfl

theorem exec_div : exec (.div a b) s = .next (endWithOverflow divResult divOverflow a b s) := rfl

/-- MOD ends by storing the remainder, and writes no overflow word (R180). -/
theorem exec_mod : exec (.mod a b) s = .next (storeResult s.pc (readBoth a b s).dest
    (modResult (readBoth a b s).va (readBoth a b s).vb) (readBoth a b s).st) :=
  rfl

end

/-! ## The statements

Their names are those of the model's functions, from which the prefix `Arithmetic` tells them apart. -/

namespace Arithmetic

/-- Settles O22: the sum cut to 16 bits is the sum of words, and the carry is the model's own test. -/
theorem addResult : Obligations.AddResult := by
  refine ⟨encodedAs_of_basicOf (op := 0x2#4) fun _ _ => rfl, fun a b s => ⟨_, exec_add a b s, ?_⟩⟩
  have hwrote := endWithOverflow_wrote a b s Machine.addResult addOverflow
  rwa [addResult_eq] at hwrote

/-- Settles O23: the difference cut to 16 bits is the difference of words, and the borrow is the model's own test. -/
theorem subResult : Obligations.SubResult := by
  refine ⟨encodedAs_of_basicOf (op := 0x3#4) fun _ _ => rfl, fun a b s => ⟨_, exec_sub a b s, ?_⟩⟩
  have hwrote := endWithOverflow_wrote a b s Machine.subResult subOverflow
  rwa [subResult_eq] at hwrote

/-- Settles O24: the two words written are the two halves of the exact product. -/
theorem mulResult : Obligations.MulResult :=
  ⟨encodedAs_of_basicOf (op := 0x4#4) fun _ _ => rfl, fun a b s =>
    ⟨_, _, _, exec_mul a b s, endWithOverflow_wrote a b s _ _, mulOverflow_mulResult _ _⟩⟩

/-- Settles O25: a zero divisor has a branch of its own, and for any other O is the fraction the remainder leaves. -/
theorem divResult : Obligations.DivResult :=
  ⟨encodedAs_of_basicOf (op := 0x5#4) fun _ _ => rfl, fun a b s =>
    ⟨_, _, _, exec_div a b s, endWithOverflow_wrote a b s _ _, fun h => ⟨if_pos h, if_pos h⟩, fun h =>
      ⟨divResult_toNat h, divOverflow_toNat h, divOverflow_toNat_eq_fraction h⟩⟩⟩

/-- Settles O26: the remainder is stored by the end that writes no overflow word. -/
theorem modResult : Obligations.ModResult := by
  refine ⟨encodedAs_of_basicOf (op := 0x6#4) fun _ _ => rfl, fun a b s =>
    ⟨_, _, exec_mod a b s, storeResult_wrote _ _ _ _, ?_⟩⟩
  split
  · next h => exact congrArg BitVec.toNat (if_pos h)
  · next h => exact modResult_toNat h

/-- Settles O27: the division laws of the natural numbers, none of whose terms leaves its word. -/
theorem divisionLaws : Obligations.DivisionLaws := by
  intro va vb h
  have hpos := toNat_pos_of_ne_zero h
  rw [divResult_toNat h, modResult_toNat h, divOverflow_toNat_eq_fraction h]
  exact ⟨Nat.div_add_mod' _ _, Nat.mod_lt _ hpos, (mul_div_eq_div_mul_add _ _ hpos).symm⟩

end Arithmetic

end Sys2Proof.Machine
end

section
/-! SUPPORT. SHL and SHR (O28 to O30): the two words each writes are the halves of one 32-bit shift, and each of them alone
is one shift of `va`. -/

namespace Sys2Proof.Machine

/-! ## Powers of two -/

theorem mul_two_pow_div_of_le (n : Nat) {i j : Nat} (h : i ≤ j) : n * 2 ^ i / 2 ^ j = n / 2 ^ (j - i) := by
  rw [← Nat.pow_sub_mul_pow 2 h, Nat.mul_div_mul_right _ _ (Nat.two_pow_pos i)]

theorem mul_two_pow_div_of_ge (n : Nat) {i j : Nat} (h : j ≤ i) : n * 2 ^ i / 2 ^ j = n * 2 ^ (i - j) := by
  rw [Nat.mul_div_assoc n (Nat.pow_dvd_pow 2 h), Nat.pow_div h Nat.two_pos]

/-! ## Exact integers as words (R10) -/

/-- The exact product cut to `v` bits is the shift of `v` bits: what the cut loses, the shift has pushed out. -/
theorem ofNat_toNat_mul_two_pow {w v : Nat} (x : BitVec w) (k : Nat) :
    BitVec.ofNat v (x.toNat * 2 ^ k) = x.setWidth v <<< k := by
  refine BitVec.eq_of_toNat_eq ?_
  simp [Nat.shiftLeft_eq]

theorem ofNat_toNat_div_two_pow {w : Nat} (x : BitVec w) (k : Nat) :
    BitVec.ofNat w (x.toNat / 2 ^ k) = x >>> k := by
  rw [← Nat.shiftRight_eq_div_pow, ← BitVec.toNat_ushiftRight, BitVec.ofNat_toNat, BitVec.setWidth_eq]

theorem word_toNat_mul_two_pow (v : Word) (k : Nat) : word (v.toNat * 2 ^ k) = v <<< k := by
  rw [word, ofNat_toNat_mul_two_pow, BitVec.setWidth_eq]

theorem word_toNat_div_two_pow (v : Word) (k : Nat) : word (v.toNat / 2 ^ k) = v >>> k :=
  ofNat_toNat_div_two_pow v k

/-- Bits 31 to 16 and bits 15 to 0 of an integer are its 32 bits. -/
theorem word_div_append_word (n : Nat) : word (n / 2 ^ 16) ++ word n = BitVec.ofNat 32 n := by
  refine BitVec.eq_of_toNat_eq ?_
  rw [BitVec.toNat_append, ← Nat.shiftLeft_add_eq_or_of_lt (BitVec.isLt _), Nat.shiftLeft_eq]
  simp only [BitVec.toNat_ofNat]
  omega

/-! ## The two words written are one 32-bit shift (R191, R192) -/

section
variable (va vb : Word)

theorem shlOverflow_append_shlResult : shlOverflow va vb ++ shlResult va vb = va.setWidth 32 <<< vb.toNat := by
  rw [shlOverflow, shlResult, word_div_append_word, ofNat_toNat_mul_two_pow]

theorem append_zero_toNat : (va ++ 0#16).toNat = va.toNat * 2 ^ 16 := by
  rw [BitVec.toNat_append, BitVec.toNat_ofNat, Nat.shiftLeft_eq]
  exact Nat.or_zero _

/-- The 32-bit word shifted is `va` over a zero word, so its high half is `va` shifted alone. -/
theorem shrResult_append_shrOverflow : shrResult va vb ++ shrOverflow va vb = (va ++ 0#16) >>> vb.toNat := by
  have hhigh : va.toNat / 2 ^ vb.toNat = va.toNat * 2 ^ 16 / 2 ^ vb.toNat / 2 ^ 16 := by
    rw [Nat.div_right_comm, Nat.mul_div_cancel _ (Nat.two_pow_pos 16)]
  rw [shrResult, hhigh, shrOverflow, word_div_append_word, ← append_zero_toNat, ofNat_toNat_div_two_pow]

/-! ## Each word written is one shift of `va` -/

theorem shlResult_eq : shlResult va vb = va <<< vb.toNat :=
  word_toNat_mul_two_pow va vb.toNat

theorem shrResult_eq : shrResult va vb = va >>> vb.toNat :=
  word_toNat_div_two_pow va vb.toNat

variable {vb}

theorem shlOverflow_eq_of_le (h : vb.toNat ≤ 16) : shlOverflow va vb = va >>> (16 - vb.toNat) := by
  rw [shlOverflow, mul_two_pow_div_of_le _ h, word_toNat_div_two_pow]

theorem shlOverflow_eq_of_ge (h : 16 ≤ vb.toNat) : shlOverflow va vb = va <<< (vb.toNat - 16) := by
  rw [shlOverflow, mul_two_pow_div_of_ge _ h, word_toNat_mul_two_pow]

theorem shrOverflow_eq_of_le (h : vb.toNat ≤ 16) : shrOverflow va vb = va <<< (16 - vb.toNat) := by
  rw [shrOverflow, mul_two_pow_div_of_ge _ h, word_toNat_mul_two_pow]

theorem shrOverflow_eq_of_ge (h : 16 ≤ vb.toNat) : shrOverflow va vb = va >>> (vb.toNat - 16) := by
  rw [shrOverflow, mul_two_pow_div_of_le _ h, word_toNat_div_two_pow]

/-- From 16 on nothing of `va` is left in the word it stood in. -/
theorem shiftResults_eq_zero (h : 16 ≤ vb.toNat) : shlResult va vb = 0#16 ∧ shrResult va vb = 0#16 := by
  rw [shlResult_eq, shrResult_eq]
  exact ⟨BitVec.shiftLeft_eq_zero h, BitVec.ushiftRight_eq_zero h⟩

end

/-! ## How the two instructions end -/

theorem exec_shl (a b : Operand) (s : State) :
    exec (.shl a b) s = .next (endWithOverflow shlResult shlOverflow a b s) :=
  rfl

theorem exec_shr (a b : Operand) (s : State) :
    exec (.shr a b) s = .next (endWithOverflow shrResult shrOverflow a b s) :=
  rfl

/-! ## The statements

Two of their names are those of the model's functions, from which the namespace `Shift` tells them apart. -/

namespace Shift

/-- Settles O28: the destination and O take the two halves of the 32-bit left shift. -/
theorem shlResult : Obligations.ShlResult :=
  ⟨encodedAs_of_basicOf (op := 0x7#4) fun _ _ => rfl, fun a b s =>
    ⟨_, _, _, exec_shl a b s, endWithOverflow_wrote a b s _ _, shlOverflow_append_shlResult _ _⟩⟩

/-- Settles O29: the destination and O take the two halves of the 32-bit right shift. -/
theorem shrResult : Obligations.ShrResult :=
  ⟨encodedAs_of_basicOf (op := 0x8#4) fun _ _ => rfl, fun a b s =>
    ⟨_, _, _, exec_shr a b s, endWithOverflow_wrote a b s _ _, shrResult_append_shrOverflow _ _⟩⟩

/-- Settles O30: each word is `va` shifted by the count or by its distance from 16, and a shift by 16 or more is 0. -/
theorem shiftsByCount : Obligations.ShiftsByCount := by
  intro va vb
  refine ⟨fun h => ?zero, fun h1 h15 => ?below, fun h => ?sixteen, fun h17 h31 => ?above, fun h => ?beyond⟩
  case zero =>
    subst h
    rw [shlResult_eq, shlOverflow_eq_of_le va (by decide), shrResult_eq, shrOverflow_eq_of_le va (by decide)]
    exact ⟨BitVec.shiftLeft_zero va, BitVec.ushiftRight_eq_zero le_rfl, BitVec.ushiftRight_zero va,
      BitVec.shiftLeft_eq_zero le_rfl⟩
  case below =>
    have h16 : vb.toNat ≤ 16 := by omega
    exact ⟨shlResult_eq va vb, shlOverflow_eq_of_le va h16, shrResult_eq va vb, shrOverflow_eq_of_le va h16⟩
  case sixteen =>
    obtain ⟨hshl, hshr⟩ := shiftResults_eq_zero va h.ge
    rw [shlOverflow_eq_of_ge va h.ge, shrOverflow_eq_of_ge va h.ge, h]
    exact ⟨hshl, BitVec.shiftLeft_zero va, hshr, BitVec.ushiftRight_zero va⟩
  case above =>
    have h16 : 16 ≤ vb.toNat := by omega
    obtain ⟨hshl, hshr⟩ := shiftResults_eq_zero va h16
    exact ⟨hshl, shlOverflow_eq_of_ge va h16, hshr, shrOverflow_eq_of_ge va h16⟩
  case beyond =>
    have h16 : 16 ≤ vb.toNat := by omega
    obtain ⟨hshl, hshr⟩ := shiftResults_eq_zero va h16
    rw [shlOverflow_eq_of_ge va h16, shrOverflow_eq_of_ge va h16]
    exact ⟨hshl, BitVec.shiftLeft_eq_zero (by omega), hshr, BitVec.ushiftRight_eq_zero (by omega)⟩

end Shift

end Sys2Proof.Machine
end

section
/-! SUPPORT. AND, BOR and XOR (O31): how the three end, and what the bits of their results are. -/

namespace Sys2Proof.Machine

/-! ## How the three instructions end -/

/-- The end of an instruction that computes its result by `f` and writes no overflow word (R200). -/
def endWithResult (f : Word → Word → Word) (a b : Operand) (s : State) : State :=
  let r := readBoth a b s
  storeResult s.pc r.dest (f r.va r.vb) r.st

section
variable (a b : Operand) (s : State)

theorem endWithResult_wrote (f : Word → Word → Word) :
    Wrote (readBoth a b s).dest (f (readBoth a b s).va (readBoth a b s).vb)
      (if (readBoth a b s).dest = .o then f (readBoth a b s).va (readBoth a b s).vb else (readBoth a b s).st.o)
      (readBoth a b s).st (endWithResult f a b s) :=
  storeResult_wrote _ _ _ _

theorem exec_and : exec (.and a b) s = .next (endWithResult (· &&& ·) a b s) := rfl

theorem exec_bor : exec (.bor a b) s = .next (endWithResult (· ||| ·) a b s) := rfl

theorem exec_xor : exec (.xor a b) s = .next (endWithResult (· ^^^ ·) a b s) := rfl

end

/-! ## The bits of their results -/

section
variable (va vb : Word) (k : Nat)

theorem getLsbD_and_iff : (va &&& vb).getLsbD k = true ↔ va.getLsbD k = true ∧ vb.getLsbD k = true := by
  rw [BitVec.getLsbD_and, Bool.and_eq_true]

theorem getLsbD_or_iff : (va ||| vb).getLsbD k = true ↔ va.getLsbD k = true ∨ vb.getLsbD k = true := by
  rw [BitVec.getLsbD_or, Bool.or_eq_true]

theorem getLsbD_xor_iff : (va ^^^ vb).getLsbD k = true ↔ va.getLsbD k ≠ vb.getLsbD k := by
  rw [BitVec.getLsbD_xor, Bool.xor_iff_ne]

end

/-! ## The statement -/

/-- Settles O31: opcodes 9, 0xA and 0xB name the three, and each stores the word whose bits are its own operation's. -/
theorem bitwiseResults : Obligations.BitwiseResults := by
  refine ⟨⟨encodedAs_of_basicOf (op := 0x9#4) fun _ _ => rfl, encodedAs_of_basicOf (op := 0xA#4) fun _ _ => rfl,
    encodedAs_of_basicOf (op := 0xB#4) fun _ _ => rfl⟩, fun a b s => ⟨?and, ?bor, ?xor⟩⟩
  case and => exact ⟨_, _, exec_and a b s, endWithResult_wrote a b s _, fun k _ => getLsbD_and_iff _ _ k⟩
  case bor => exact ⟨_, _, exec_bor a b s, endWithResult_wrote a b s _, fun k _ => getLsbD_or_iff _ _ k⟩
  case xor => exact ⟨_, _, exec_xor a b s, endWithResult_wrote a b s _, fun k _ => getLsbD_xor_iff _ _ k⟩

end Sys2Proof.Machine
end

section
/-! SUPPORT. IFE, IFN, IFG and IFB (O32): what the end of a conditional leaves in each field. -/

namespace Sys2Proof.Machine

/-- A conditional's end touches the pending-skip flag and the events, and no other field (R210). -/
theorem skipUnless_eq (pc0 : Word) (holds : Bool) (s : State) :
    skipUnless pc0 holds s =
      { s with skip := !holds || s.skip, outputs := s.outputs ++ [.instructionExecuted pc0 false] } := by
  cases holds <;> rfl

/-- Settles O32: opcodes 0xC to 0xF name the four; each ends its operand phase by recording its test, and the flag it
then leaves is set by a failed test alone. -/
theorem conditionalsTest : Obligations.ConditionalsTest := by
  refine ⟨⟨encodedAs_of_basicOf (op := 0xC#4) fun _ _ => rfl, encodedAs_of_basicOf (op := 0xD#4) fun _ _ => rfl,
    encodedAs_of_basicOf (op := 0xE#4) fun _ _ => rfl, encodedAs_of_basicOf (op := 0xF#4) fun _ _ => rfl⟩, ?_⟩
  intro i a b s hi hs
  obtain ⟨t, hexec, hdone⟩ := exec_completed (isDefined_of_compares hi) s
  have hskip : t.skip = true ↔ ¬ i.asks (readBoth a b s).va (readBoth a b s).vb := by
    simpa [hi] using hdone.skip_iff hs
  obtain ⟨holds, rfl⟩ := hdone.eq_skipUnless hi
  refine ⟨_, hexec, hskip, ?frame⟩
  case frame =>
    rw [skipUnless_eq]
    exact ⟨rfl, rfl, rfl, rfl, rfl, rfl, rfl, rfl⟩

end Sys2Proof.Machine
end

section
/-! SUPPORT. JSR, and the return from it (O33, O37): the words that name it, its push and jump, and what SET PC, POP
makes of the pushed word. -/

namespace Sys2Proof.Machine

/-! ## The words of JSR -/

/-- The low ten bits of a word are its opcode field and its extended opcode (R91, R92). -/
theorem decodeWords_jsr {w : Word} (hw : w.toNat % 1024 = 0x10) (e1 e2 : Word) :
    decodeWords w e1 e2 = .jsr (operandOf (BitVec.ofNat 6 (w.toNat / 1024)) e1) := by
  have hop : opField w = 0#4 := (opField_eq_zero_iff w).mpr (by omega)
  have hxop : midField w = 1#6 := (midField_eq_one_iff w).mpr (by omega)
  rw [decodeWords_extended hop, hxop, topField_eq_ofNat]
  rfl

/-! ## The call -/

/-- JSR's end as one bus write after its operand phase, with PC, SP and the two events set beside it (R220). -/
theorem exec_jsr (a : Operand) (s : State) :
    let r := readOperand a s
    exec (.jsr a) s = .next { r.2.busWrite (r.2.sp - 1#16) r.2.pc with
      pc := r.1
      sp := r.2.sp - 1#16
      outputs := (r.2.busWrite (r.2.sp - 1#16) r.2.pc).outputs ++
        [.instructionExecuted s.pc false, .memoryModified (r.2.sp - 1#16)] } :=
  rfl

/-- A bus write after an operand phase shows in the RAM at its own address, outside the windows of the start (R61). -/
theorem OperandPhase.ramWord_busWrite {words move : Word} {s u : State} (h : OperandPhase words move s u)
    (x v b : Word) :
    (u.busWrite x v).ramWord b = if b = x ∧ s.inWindow b = false then v else s.ramWord b := by
  obtain ⟨-, -, -, hram, -, -, -, hwiring⟩ := h.frame
  have hkept : u.ramWord b = s.ramWord b := congrArg (Memory.get Config.ramCapacity · b.toNat) hram
  rw [State.ramWord_busWrite, State.inWindow_of_wiring hwiring, hkept]
  refine if_congr (and_congr_right ?_) rfl rfl
  rintro rfl
  rfl

/-- Settles O33: JSR is its operand phase and one bus write; what the write does not touch is as that phase left it. -/
theorem jsrPushesAndJumps : Obligations.JsrPushesAndJumps := by
  refine ⟨fun w e1 e2 hw => decodeWords_jsr hw e1 e2, fun a s => ?_⟩
  intro r
  have hphase : OperandPhase (extraCount a) (spMove a) s r.2 := readOperand_phase a s
  obtain ⟨hregs, ho, hskip, -, -, hparams, -, hwiring⟩ := hphase.frame
  exact ⟨_, exec_jsr a s, rfl, rfl, hphase.pc, rfl, rfl, hphase.ramWord_busWrite _ _, hregs, ho, hskip, hparams, rfl,
    (State.busWrite_wiring r.2 _ _).trans hwiring⟩

/-! ## The return -/

/-- SET PC, POP takes PC from the word SP points at and moves SP past it (R223). -/
theorem exec_set_pc_pop (t : State) :
    ∃ u, exec (.set .pc .pop) t = .next u ∧ u.pc = t.peek t.sp ∧ u.sp = t.sp + 1#16 ∧
      u.regs = t.regs ∧ u.o = t.o ∧ u.skip = t.skip := by
  have hphase := readSource_phase .pc .pop t
  obtain ⟨hregs, ho, hskip, -⟩ := hphase.frame
  have hword : (readSource .pc .pop t).vb = t.peek t.sp :=
    readSource_vb_of_address .pc t (congrArg some (BitVec.add_zero t.sp))
  have hsp : (readSource .pc .pop t).st.sp = t.sp + 1#16 := hphase.sp
  exact ⟨_, exec_set .pc .pop t, hword, hsp, hregs, ho, hskip⟩

/-- Settles O37: SP still points at the word JSR pushed, so the return pops the address after the JSR. -/
theorem callThenReturn : Obligations.CallThenReturn := by
  intro a s t hcall hout
  obtain ⟨t', hexec, -, hsp, hpc, -, -, hram, hregs, ho, hskip, -, -, hwiring⟩ := jsrPushesAndJumps.2 a s
  obtain rfl : t' = t := Host.Outcome.next.inj (hexec.symm.trans hcall)
  have hpushed : t'.peek t'.sp = s.pc + 1#16 + extraCount a := by
    have houtNow : t'.inWindow t'.sp = false := (State.inWindow_of_wiring hwiring t'.sp).trans hout
    rw [State.peek, State.busRead_outside houtNow, hram, if_pos ⟨hsp, hout⟩, hpc]
  obtain ⟨u, hreturn, hupc, husp, huregs, huo, huskip⟩ := exec_set_pc_pop t'
  refine ⟨u, hreturn, hupc.trans hpushed, ?sp, huregs.trans hregs, huo.trans ho, huskip.trans hskip⟩
  rw [husp, hsp, BitVec.sub_add_cancel, (readOperand_phase a s).sp]

end Sys2Proof.Machine
end

section
/-! SUPPORT. Reset (O7), and a raising step with no window over PC (O57, O9): the state it leaves has the same word at the
same PC. -/

namespace Sys2Proof.Machine

/-! ## What reset leaves -/

section
variable (p : Config.Params)

theorem State.resetWith_reg (r : Reg) : (State.resetWith p).reg r = 0#16 := by
  cases r <;> rfl

theorem State.resetWith_ramWord (a : Word) : (State.resetWith p).ramWord a = 0#16 := rfl

theorem State.resetWith_inWindow (a : Word) : (State.resetWith p).inWindow a = false := rfl

end

/-- The two values a reset may leave in SP (R39, R263). -/
theorem spResetWord_eq (r : Config.SpReset) :
    Config.spResetWord r = (match r with | .zero => 0x0000#16 | .ones => 0xFFFF#16) := by
  cases r <;> rfl

/-- Settles O7: the reset port forgets all of the state but its parameters. -/
theorem resetClearsEverything : Obligations.ResetClearsEverything :=
  fun s => ⟨State.resetWith_reg s.params, rfl, rfl, spResetWord_eq s.params.spReset, rfl,
    State.resetWith_ramWord s.params, rfl⟩

/-! ## Raising from the RAM -/

/-- The state a step leaves that raises at a PC outside the windows: the one read, and nothing else (R156, R232). -/
def State.afterRaise (s : State) : State :=
  { s with bus := [.read s.pc (s.ramWord s.pc)], outputs := [], phase := .running }

/-- With no window over PC, whether a step raises is read off the RAM's word there (R100, R230 to R232). -/
theorem step_raises_outside_iff {s t : State} {xop : Field6} (h : s.inWindow s.pc = false) :
    step s = .fault (.illegalOpcode xop t) ↔
      s.skip = false ∧ (s.ramWord s.pc).toNat % 16 = 0 ∧ (s.ramWord s.pc).toNat / 16 % 64 ≠ 1 ∧
        xop = BitVec.ofNat 6 ((s.ramWord s.pc).toNat / 16) ∧ t = s.afterRaise := by
  rw [(stepOutcome s).2.1, State.peek, State.busRead_outside h, Fault.illegalOpcode.injEq]
  rfl

/-- Settles O57: the state left keeps `skip`, PC, the RAM and the windows, and leaves itself when it raises. -/
theorem raisesAgain : Obligations.RaisesAgain := by
  intro s t xop hraise hout
  obtain ⟨hskip, hlow, hmid, hxop, rfl⟩ := (step_raises_outside_iff hout).mp hraise
  have hout' : s.afterRaise.inWindow s.afterRaise.pc = false := hout
  exact (step_raises_outside_iff hout').mpr ⟨hskip, hlow, hmid, hxop, rfl⟩

/-- Settles O9: the word at PC is 0, which has no operation. -/
theorem emptyMachineRaises : Obligations.EmptyMachineRaises := by
  intro p
  have hword : (State.resetWith p).ramWord (State.resetWith p).pc = 0#16 := State.resetWith_ramWord p _
  rw [step_raises_outside_iff (State.resetWith_inWindow p _), hword]
  exact ⟨rfl, rfl, by decide, rfl, rfl⟩

end Sys2Proof.Machine
end

section
/-! SUPPORT. The two devices the spec describes (O13, O14): what an access or a key makes of a keyboard's buffer, and
what a write makes of a display's cell. -/

namespace Sys2Proof.Machine

/-! ## A keyboard -/

/-- A read takes the oldest key code off the buffer, or answers 0 (R248). -/
theorem Device.get_keyboard (name : String) (base depth n : Nat) (fifo : List Word) :
    (Device.keyboard depth fifo).get name base n = (fifo.headD 0#16, .keyboard depth fifo.tail) := by
  cases fifo <;> rfl

/-- An act at the installation that `pre` comes before changes that one (R251). -/
theorem changeDevice_append (f : Device → Option Device) (pre post : List Installation) (m : Installation) :
    changeDevice f (pre ++ m :: post) pre.length =
      (f m.device).map fun d => pre ++ { m with device := d } :: post := by
  induction pre with
  | nil => rfl
  | cons n ns ih =>
    simp only [List.cons_append, List.length_cons, changeDevice, ih, Option.map_map]
    rfl

/-- An act that a device takes leaves the state with that device changed (R78, R251). -/
theorem State.environment_append {s : State} {f : Device → Option Device} {pre post : List Installation}
    {m : Installation} {d : Device} (hdev : s.devices = pre ++ m :: post) (hd : f m.device = some d) :
    s.environment f pre.length = .next { s with devices := pre ++ { m with device := d } :: post } := by
  rw [State.environment, hdev, changeDevice_append, hd]
  rfl

/-- Settles O13: the first window over the address is the keyboard's one word. -/
theorem keyboardBuffer : Obligations.KeyboardBuffer := by
  intro s pre post name depth fifo a code hdev hpre
  have hfirst : pre.any (fun n => n.covers a.toNat) = false := by simpa using hpre
  have hcovers :
      Installation.covers { base := a.toNat, name := name, device := .keyboard depth fifo } a.toNat = true :=
    (Installation.covers_iff _ _).mpr ⟨Nat.le_refl _, Nat.lt_succ_self _⟩
  have hread := State.busRead_first hdev hfirst hcovers
  rw [Device.get_keyboard] at hread
  refine ⟨by rw [hread], by rw [hread], ?write, State.environment_append hdev rfl⟩
  case write => exact (congrArg State.devices (State.busWrite_first hdev hfirst hcovers code)).trans hdev.symm

/-! ## A display -/

/-- A word is its upper nine bits, the attributes, beside its lower seven, the character (R246). -/
theorem toNat_attributes_character (v : Word) :
    v.toNat = (v.extractLsb' 7 9).toNat * 128 + (v.extractLsb' 0 7).toNat := by
  simp only [BitVec.extractLsb'_toNat, Nat.shiftRight_eq_div_pow]
  omega

/-- What a display shows for a word (R246). -/
theorem displayCell_spec (v : Word) :
    (v = 0#16 → displayCell v = .blank) ∧
    (v ≠ 0#16 → ∃ attributes character, displayCell v = .glyph attributes character ∧
      v.toNat = attributes.toNat * 128 + character.toNat) :=
  ⟨fun hv => if_pos hv, fun hv => ⟨_, _, if_neg hv, toNat_attributes_character v⟩⟩

/-- Settles O14: the write and the read go to the same word of the display's store. -/
theorem displayWindow : Obligations.DisplayWindow := by
  intro s pre post base size offset name cells v hdev hpre hoff hend t
  have ht := State.busWrite_offset hdev hpre hoff hend v
  have htdev : t.devices = pre ++
      { base := base, name := name
        device := .display size (Memory.put size cells offset (Config.displayStore v)) } :: post :=
    congrArg State.devices ht
  refine ⟨?_, (congrArg State.ram ht :), displayCell v, congrArg State.outputs ht, displayCell_spec v⟩
  rw [State.peek, State.busRead_offset htdev hpre hoff hend]
  simp [Device.get, Memory.get_put]

end Sys2Proof.Machine
end

section
/-! SUPPORT. The host's order of acts (O15, O52): when a load is admitted, where its words go, and what moves the phase. -/

namespace Sys2Proof.Machine

/-! ## The words of an image -/

theorem add_one_add_word (a : Word) (k : Nat) : a + 1#16 + word k = a + word (k + 1) := by
  rw [BitVec.add_assoc, BitVec.add_comm 1#16, ← BitVec.ofNat_add]

/-- Fewer than 2^16 steps up from an address do not lead back to it. -/
theorem ne_add_word_succ (a : Word) {k : Nat} (hk : k + 1 < 65536) : a ≠ a + word (k + 1) := by
  intro h
  have hzero : word (k + 1) = 0#16 := by simpa using h.symm
  have hvalue := congrArg BitVec.toNat hzero
  rw [toNat_word hk] at hvalue
  cases hvalue

/-- The addresses of an image are its first word's and those of the rest, one up (R24, R266). -/
theorem forall_address_cons (P : Word → Prop) (a v : Word) (vs : List Word) :
    (∀ k < (v :: vs).length, P (a + word k)) ↔ P a ∧ ∀ k < vs.length, P (a + 1#16 + word k) := by
  simp only [List.length_cons, Nat.forall_lt_succ_left, add_one_add_word, BitVec.add_zero]

theorem imageMeetsWindow_eq_false_iff {s : State} {a : Word} {image : List Word} :
    imageMeetsWindow s a image = false ↔ ∀ k < image.length, s.inWindow (a + word k) = false := by
  induction image generalizing a with
  | nil => simp [imageMeetsWindow]
  | cons v vs ih =>
    rw [imageMeetsWindow, Bool.or_eq_false_iff, ih, forall_address_cons (s.inWindow · = false)]

/-- Loading is bus writes, so it changes RAM, devices, outputs and trace at most (R266). -/
theorem loadWords_state (a : Word) (image : List Word) (s : State) :
    loadWords a image s = { s with
      ram := (loadWords a image s).ram, devices := (loadWords a image s).devices
      outputs := (loadWords a image s).outputs, bus := (loadWords a image s).bus } := by
  induction image generalizing a s with
  | nil => rfl
  | cons v vs ih =>
    rw [loadWords, ih]
    rfl

theorem State.busWrite_inWindow (s : State) (a v b : Word) : (s.busWrite a v).inWindow b = s.inWindow b :=
  State.inWindow_of_wiring (s.busWrite_wiring a v) b

/-- A load of an image that meets no window changes no device (R59). -/
theorem loadWords_devices {a : Word} {image : List Word} {s : State}
    (h : ∀ k < image.length, s.inWindow (a + word k) = false) : (loadWords a image s).devices = s.devices := by
  induction image generalizing a s with
  | nil => rfl
  | cons v vs ih =>
    obtain ⟨hhead, htail⟩ := (forall_address_cons (s.inWindow · = false) a v vs).mp h
    have hkept := ih (a := a + 1#16) (s := s.busWrite a v) fun k hk => by rw [State.busWrite_inWindow, htail k hk]
    rw [loadWords, hkept, State.busWrite_outside hhead]

/-- A load leaves every RAM word at no address of the image (R266). -/
theorem loadWords_ramWord_of_ne {a b : Word} {image : List Word} {s : State}
    (h : ∀ k < image.length, b ≠ a + word k) : (loadWords a image s).ramWord b = s.ramWord b := by
  induction image generalizing a s with
  | nil => rfl
  | cons v vs ih =>
    obtain ⟨hhead, htail⟩ := (forall_address_cons (b ≠ ·) a v vs).mp h
    rw [loadWords, ih htail, State.ramWord_busWrite, if_neg fun hb => hhead hb.1]

/-- A load puts word `k` of the image `k` addresses up: no later word of 65536 falls on its address (R266). -/
theorem loadWords_ramWord {a : Word} {image : List Word} {s : State} (hlen : image.length ≤ 65536)
    (h : ∀ k < image.length, s.inWindow (a + word k) = false) (k : Nat) (hk : k < image.length) :
    (loadWords a image s).ramWord (a + word k) = image[k] := by
  induction image generalizing a s k with
  | nil => cases hk
  | cons v vs ih =>
    simp only [List.length_cons] at hlen hk
    obtain ⟨hhead, htail⟩ := (forall_address_cons (s.inWindow · = false) a v vs).mp h
    cases k with
    | zero =>
      have hlater : ∀ j < vs.length, a ≠ a + 1#16 + word j := fun j hj => by
        rw [add_one_add_word]
        exact ne_add_word_succ a (by omega)
      rw [loadWords, BitVec.add_zero, loadWords_ramWord_of_ne hlater, State.ramWord_busWrite, if_pos ⟨rfl, hhead⟩]
      rfl
    | succ k =>
      rw [loadWords, ← add_one_add_word a k]
      exact ih (by omega) (fun j hj => by rw [State.busWrite_inWindow, htail j hj]) k (by omega)

/-! ## Loading -/

/-- When `load` succeeds, and with what (R264, R266, R269). -/
theorem State.load_next_iff {s t : State} {offset : Word} {image : List Word} :
    s.load offset image = .next t ↔
      s.phase ≠ .running ∧ image.length ≤ 65536 ∧ (∀ k < image.length, s.inWindow (offset + word k) = false) ∧
        t = { loadWords offset image s with phase := .loaded } := by
  rw [← imageMeetsWindow_eq_false_iff]
  simp only [State.load]
  split
  · next hphase => exact ⟨nofun, fun ⟨hnot, _⟩ => absurd hphase hnot⟩
  next hphase =>
  split
  · next hlong => exact ⟨nofun, fun ⟨_, hlen, _⟩ => absurd hlong (Nat.not_lt.mpr hlen)⟩
  next hlen =>
  split
  · next hmeets => exact ⟨nofun, fun ⟨_, _, hnot, _⟩ => absurd hmeets (by simp [hnot])⟩
  next hmeets =>
  constructor
  · intro h
    injection h with h
    exact ⟨hphase, Nat.not_lt.mp hlen, by simpa using hmeets, h.symm⟩
  · rintro ⟨-, -, -, rfl⟩
    rfl

/-- Settles O15: the three tests of `load`, and what the bus writes of an image outside the windows leave. -/
theorem loadPlacesImage : Obligations.LoadPlacesImage := by
  refine ⟨fun s t offset image h => ?placed, fun s offset image hlong t h => ?refused,
    fun s offset image => ⟨fun ⟨t, h⟩ => ?needed, fun ⟨hphase, hlen, hout⟩ => ?enough⟩⟩
  case placed =>
    obtain ⟨-, hlen, hout, rfl⟩ := State.load_next_iff.mp h
    have hstate := loadWords_state offset image s
    exact ⟨fun k hk => loadWords_ramWord hlen hout k hk, fun a ha => loadWords_ramWord_of_ne ha,
      (congrArg State.regs hstate :), (congrArg State.pc hstate :), (congrArg State.sp hstate :),
      (congrArg State.o hstate :), (congrArg State.skip hstate :), loadWords_devices hout⟩
  case refused =>
    obtain ⟨-, hlen, -⟩ := State.load_next_iff.mp h
    exact absurd hlong (Nat.not_lt.mpr hlen)
  case needed =>
    obtain ⟨hphase, hlen, hout, -⟩ := State.load_next_iff.mp h
    exact ⟨hphase, hlen, hout⟩
  case enough => exact ⟨_, State.load_next_iff.mpr ⟨hphase, hlen, hout, rfl⟩⟩

/-! ## The phase -/

theorem Wrote.phase {l : Location} {v o' : Word} {s t : State} (h : Wrote l v o' s t) : t.phase = s.phase := by
  obtain ⟨-, -, -, -, -, -, hphase, -⟩ := h
  exact hphase

theorem OperandPhase.phase {words move : Word} {s u : State} (h : OperandPhase words move s u) :
    u.phase = s.phase := by
  rw [h.state]

/-- No instruction moves the phase; the beginning of the step has (R269). -/
theorem Completed.phase {i : Instr} {s t : State} (h : Completed i s t) : t.phase = s.phase := by
  cases h with
  | set => exact (storeResult_wrote _ _ _ _).phase.trans (readSource_phase _ _ s).phase
  | result => exact (storeResult_wrote _ _ _ _).phase.trans (readBoth_phase _ _ s).phase
  | overflow => exact (storeWithOverflow_wrote _ _ _ _ _).phase.trans (readBoth_phase _ _ s).phase
  | compared =>
    rw [skipUnless_eq]
    exact (readBoth_phase _ _ s).phase
  | jsr a => exact (readOperand_phase a s).phase

theorem State.fetched_phase (s : State) : s.fetched.st.phase = .running := by
  rw [s.fetched_state]

/-- A step, one that raises too, leaves stepping begun (R265, R269). -/
theorem step_phase {s t : State} (h : step s = .next t ∨ ∃ xop, step s = .fault (.illegalOpcode xop t)) :
    t.phase = .running := by
  obtain h | ⟨xop, h⟩ := h
  · obtain ⟨-, rfl⟩ | ⟨-, hexec⟩ := step_next h
    · rfl
    · exact (exec_next hexec).2.phase.trans s.fetched_phase
  · obtain ⟨-, _, _, -, hleft⟩ := step_fault h
    injection hleft with _ hleft
    exact hleft ▸ s.fetched_phase

theorem State.environment_phase {s t : State} {f : Device → Option Device} {n : Nat}
    (h : s.environment f n = .next t) : t.phase = s.phase := by
  obtain ⟨_, _, -, -, rfl⟩ := State.environment_next h
  rfl

/-- Settles O52: `install` and `load` test the phase first; `load`, a step and reset alone set it. -/
theorem hostOrder : Obligations.HostOrder := by
  intro s
  refine ⟨fun hphase name base k => if_pos hphase, fun hphase offset image => if_pos hphase, rfl,
    fun name base k t h => ?install, fun offset image t h => ?load, fun t h => step_phase (.inl h),
    fun xop t h => step_phase (.inr ⟨xop, h⟩), fun a => rfl, fun n key t h => State.environment_phase h,
    fun n code t h => State.environment_phase h⟩
  case install =>
    obtain ⟨hphase, -, -, -, rfl⟩ := State.install_next_iff.mp h
    exact hphase
  case load =>
    obtain ⟨-, -, -, rfl⟩ := State.load_next_iff.mp h
    rfl

end Sys2Proof.Machine
end
